-- ==== Sys2Proof/Word.lean ====
section
/-! DEFINITION. The word types of the block (00_scope.md R16, R17). -/

namespace Sys2Proof

/-- A 32-bit register or command word (10_state.md R42, 30_encoding.md R100). -/
abbrev Word := BitVec 32

/-- One byte of the DATA window or of a slot buffer. -/
abbrev Byte := BitVec 8

/-- A slot number as the command word carries it: four bits (30_encoding.md R101). -/
abbrev SlotNum := BitVec 4

end Sys2Proof
end

