-- ==== Sys2Proof/Config.lean ====
section
/-! DEFINITION. What an implementation of the block fixes: the parameters of 00_scope.md section 4, and the
two points the spec leaves to the platform, which stay opaque. -/

namespace Sys2Proof

/-- The parameters of one block (00_scope.md R11 to R14). They never change; a model takes them as arguments
(92_eei_decisions.md D2), so they stand in the state and no step writes them. -/
structure Params where
  /-- `NUM_SLOTS`, the number of store slots (R11). -/
  numSlots : Nat
  /-- `MAX_BYTES`, the longest store and the size of the DATA window (R12). -/
  maxBytes : Nat
  /-- `MAX_FIELDS`, the most fields the packer holds (R13). -/
  maxFields : Nat
  /-- `BASE`, the bus address of the register window (R14). -/
  base : Nat
deriving DecidableEq, Repr

/-- The ranges 00_scope.md R11 to R13 and 20_memory.md R71 give the parameters. -/
abbrev Params.wf (p : Params) : Prop :=
  (1 ≤ p.numSlots ∧ p.numSlots ≤ 16) ∧
  (16 ≤ p.maxBytes ∧ p.maxBytes ≤ 268435452 ∧ p.maxBytes % 4 = 0) ∧
  (1 ≤ p.maxFields ∧ p.maxFields ≤ 65535) ∧
  p.base % 256 = 0

/-- The spec's suggested values (00_scope.md R11 to R13), with the window at bus address 0.
DESIGN CHOICE (logs 1 and 2): unsafe for a claim that rests on these numbers. -/
def Params.suggested : Params := { numSlots := 4, maxBytes := 64, maxFields := 64, base := 0 }

/-- What a host can see of an access. Of one the block did not serve, 20_memory.md R75 names these three
forms. -/
inductive HostView where
  /-- A bus-error exception in the host. -/
  | busException
  /-- The access ended and nothing was read: a write that was done, or one that was discarded. -/
  | nothing
  /-- Read data, zero-extended to 32 bits. -/
  | data (w : Word)
deriving DecidableEq, Repr, Inhabited

/-- `BUS_ERROR_RESPONSE` (20_memory.md R75, OPEN): what a host sees of the block's error response to an
access, given whether it was a write, its address, its width in bits and its place in the run. Free: log 5. -/
opaque Config.busErrorResponse : (isWrite : Bool) → (addr bits occasion : Nat) → HostView

/-- What a host sees of an access to an address outside the block's window, which is the platform's
(20_memory.md R71, 93_implementation_defined.md X8). Free: log 6. -/
opaque Config.outsideResponse : (isWrite : Bool) → (addr bits occasion : Nat) → HostView

end Sys2Proof
end

