-- ==== Sys2Proof/Syntax.lean ====
section
/-! DEFINITION. The commands of the block, one constructor for each row of spec/opcode_table.json. -/

namespace Sys2Proof

/-- A command of the opcode map (30_encoding.md R103). `m` is the variant bit M of the command word (`true`
builds a mutable store), `sa` and `sb` are its slot fields (R101). -/
inductive Instr where
  /-- NOP, format N (43_control.md R260). -/
  | nop
  /-- LOADB, format SM (40_store_construction.md R131). -/
  | loadb (m : Bool) (sa : SlotNum)
  /-- LOAD8, format SM (R132). -/
  | load8 (m : Bool) (sa : SlotNum)
  /-- LOAD16, format SM (R133). -/
  | load16 (m : Bool) (sa : SlotNum)
  /-- LOAD32, format SM (R134). -/
  | load32 (m : Bool) (sa : SlotNum)
  /-- LOAD64, format SM (R135). -/
  | load64 (m : Bool) (sa : SlotNum)
  /-- LOAD128, format SM (R136). -/
  | load128 (m : Bool) (sa : SlotNum)
  /-- COPY, format SSM: slot `sa` from slot `sb` (R137). -/
  | copy (m : Bool) (sa sb : SlotNum)
  /-- FREE, format S (R138). -/
  | free (sa : SlotNum)
  /-- GET, format S (41_store_access.md R171). -/
  | get (sa : SlotNum)
  /-- SET, format S (R172). -/
  | set (sa : SlotNum)
  /-- SLICE, format S (R173). -/
  | slice (sa : SlotNum)
  /-- COUNT, format S (R190). -/
  | count (sa : SlotNum)
  /-- NBYTES, format S (R191). -/
  | nbytes (sa : SlotNum)
  /-- EXPORT, format S: the physical buffer, padding included (R195). -/
  | exportAll (sa : SlotNum)
  /-- EXPORTL, format S: the logical bytes (R196). -/
  | exportLogical (sa : SlotNum)
  /-- EQ, format SS: receiver `sa`, comparand `sb` (R200). -/
  | eq (sa sb : SlotNum)
  /-- PADD, format N (42_packer.md R222). -/
  | padd
  /-- PADDB, format N (R223). -/
  | paddb
  /-- PADD8, format N (R224). -/
  | padd8
  /-- PADD16, format N (R225). -/
  | padd16
  /-- PBUILD, format SM (R228). -/
  | pbuild (m : Bool) (sa : SlotNum)
  /-- PCLEAR, format N (R229). -/
  | pclear
deriving DecidableEq, Repr

end Sys2Proof
end

