-- ==== Sys2Proof/WellFormed.lean ====
section
/-! DEFINITION. Which commands a block of given parameters can decode: every slot field names an existing slot
(30_encoding.md R104, R105). -/

namespace Sys2Proof

/-- The slot fields a command uses: SA first, then SB (30_encoding.md R102). -/
def Instr.slotFields : Instr → List SlotNum
  | .nop => []
  | .loadb _ sa => [sa]
  | .load8 _ sa => [sa]
  | .load16 _ sa => [sa]
  | .load32 _ sa => [sa]
  | .load64 _ sa => [sa]
  | .load128 _ sa => [sa]
  | .copy _ sa sb => [sa, sb]
  | .free sa => [sa]
  | .get sa => [sa]
  | .set sa => [sa]
  | .slice sa => [sa]
  | .count sa => [sa]
  | .nbytes sa => [sa]
  | .exportAll sa => [sa]
  | .exportLogical sa => [sa]
  | .eq sa sb => [sa, sb]
  | .padd => []
  | .paddb => []
  | .padd8 => []
  | .padd16 => []
  | .pbuild _ sa => [sa]
  | .pclear => []

/-- A command is well formed for a block when each slot it names is below `NUM_SLOTS`
(30_encoding.md R104). Every other field of a command holds any value. -/
abbrev Instr.wellFormed (p : Params) (i : Instr) : Prop :=
  ∀ f ∈ i.slotFields, f.toNat < p.numSlots

end Sys2Proof
end

