-- ==== Sys2Proof/Decode.lean ====
section
/-! DEFINITION. The command decoder, total on 32-bit words and rejecting by name, and the encoder
(30_encoding.md sections 1 to 3). -/

namespace Sys2Proof

/-- The five formats of 30_encoding.md R102. -/
inductive Format where
  /-- OP only. -/
  | n
  /-- OP, SA. -/
  | s
  /-- OP, M, SA. -/
  | sm
  /-- OP, M, SA, SB. -/
  | ssm
  /-- OP, SA, SB. -/
  | ss
deriving DecidableEq, Repr

/-- The fixed bits of a format (30_encoding.md R102). -/
def Format.mask : Format → Word
  | .n => 0xFFFFFFFF
  | .s => 0xFFFFF0FF
  | .sm => 0xFFFFF0BF
  | .ssm => 0xFFFF00BF
  | .ss => 0xFFFF00FF

/-- Whether the format has a slot field SA (30_encoding.md R102). -/
def Format.usesSA : Format → Bool
  | .n => false
  | .s => true
  | .sm => true
  | .ssm => true
  | .ss => true

/-- Whether the format has a slot field SB (30_encoding.md R102). -/
def Format.usesSB : Format → Bool
  | .n => false
  | .s => false
  | .sm => false
  | .ssm => true
  | .ss => true

/-- Why a command word decodes to no command (30_encoding.md R104, R105). Each is IllegalCommand for the
block. -/
inductive DecodeError where
  /-- OP is not in the opcode map of R103. -/
  | reservedOp
  /-- A reserved bit, or a field the format does not use, is not 0. -/
  | nonzeroFixedBit
  /-- SA is not below `NUM_SLOTS`. -/
  | noSlotA
  /-- SB is not below `NUM_SLOTS`. -/
  | noSlotB
deriving DecidableEq, Repr

/-- Field OP, bits [5:0] of the command word (30_encoding.md R101). -/
def fieldOP (w : Word) : BitVec 6 := w.extractLsb' 0 6

/-- Field M, bit [6] (30_encoding.md R101). -/
def fieldM (w : Word) : Bool := w.getLsbD 6

/-- Field SA, bits [11:8] (30_encoding.md R101). -/
def fieldSA (w : Word) : SlotNum := w.extractLsb' 8 4

/-- Field SB, bits [15:12] (30_encoding.md R101). -/
def fieldSB (w : Word) : SlotNum := w.extractLsb' 12 4

/-- The opcode map of 30_encoding.md R103: for each OP, its format and the command its fields M, SA, SB
make; `none` for a reserved OP (R105). -/
def opcodeMap (op : BitVec 6) : Option (Format × (Bool → SlotNum → SlotNum → Instr)) :=
  match op.toNat with
  | 0x00 => some (.n, fun _ _ _ => .nop)
  | 0x01 => some (.sm, fun m sa _ => .loadb m sa)
  | 0x02 => some (.sm, fun m sa _ => .load8 m sa)
  | 0x03 => some (.sm, fun m sa _ => .load16 m sa)
  | 0x04 => some (.sm, fun m sa _ => .load32 m sa)
  | 0x05 => some (.sm, fun m sa _ => .load64 m sa)
  | 0x06 => some (.sm, fun m sa _ => .load128 m sa)
  | 0x07 => some (.ssm, fun m sa sb => .copy m sa sb)
  | 0x08 => some (.s, fun _ sa _ => .free sa)
  | 0x10 => some (.s, fun _ sa _ => .get sa)
  | 0x11 => some (.s, fun _ sa _ => .set sa)
  | 0x12 => some (.s, fun _ sa _ => .slice sa)
  | 0x13 => some (.s, fun _ sa _ => .count sa)
  | 0x14 => some (.s, fun _ sa _ => .nbytes sa)
  | 0x15 => some (.s, fun _ sa _ => .exportAll sa)
  | 0x16 => some (.s, fun _ sa _ => .exportLogical sa)
  | 0x17 => some (.ss, fun _ sa sb => .eq sa sb)
  | 0x20 => some (.n, fun _ _ _ => .padd)
  | 0x21 => some (.n, fun _ _ _ => .paddb)
  | 0x22 => some (.n, fun _ _ _ => .padd8)
  | 0x23 => some (.n, fun _ _ _ => .padd16)
  | 0x24 => some (.sm, fun m sa _ => .pbuild m sa)
  | 0x25 => some (.n, fun _ _ _ => .pclear)
  | _ => none

/-- Decoding of a command word by a block of the given parameters, the checks in the order of
30_encoding.md R104. A command's `match` is its OP with every other fixed bit 0 (R102). -/
def decode (p : Params) (w : Word) : Except DecodeError Instr :=
  match opcodeMap (fieldOP w) with
  | none => .error .reservedOp
  | some (fmt, build) =>
    if w &&& fmt.mask ≠ (fieldOP w).setWidth 32 then .error .nonzeroFixedBit
    else if fmt.usesSA ∧ p.numSlots ≤ (fieldSA w).toNat then .error .noSlotA
    else if fmt.usesSB ∧ p.numSlots ≤ (fieldSB w).toNat then .error .noSlotB
    else .ok (build (fieldM w) (fieldSA w) (fieldSB w))

/-- The command word with the given fields (30_encoding.md R101): `OP | M << 6 | SA << 8 | SB << 12`. -/
def commandWord (op : BitVec 6) (m : Bool) (sa sb : SlotNum) : Word :=
  op.setWidth 32 ||| ((BitVec.ofBool m).setWidth 32 <<< 6) |||
    (sa.setWidth 32 <<< 8) ||| (sb.setWidth 32 <<< 12)

/-- The word of a command, from the opcode map of 30_encoding.md R103; fields its format does not use are
0 (R102). -/
def encode : Instr → Word
  | .nop => commandWord 0x00 false 0 0
  | .loadb m sa => commandWord 0x01 m sa 0
  | .load8 m sa => commandWord 0x02 m sa 0
  | .load16 m sa => commandWord 0x03 m sa 0
  | .load32 m sa => commandWord 0x04 m sa 0
  | .load64 m sa => commandWord 0x05 m sa 0
  | .load128 m sa => commandWord 0x06 m sa 0
  | .copy m sa sb => commandWord 0x07 m sa sb
  | .free sa => commandWord 0x08 false sa 0
  | .get sa => commandWord 0x10 false sa 0
  | .set sa => commandWord 0x11 false sa 0
  | .slice sa => commandWord 0x12 false sa 0
  | .count sa => commandWord 0x13 false sa 0
  | .nbytes sa => commandWord 0x14 false sa 0
  | .exportAll sa => commandWord 0x15 false sa 0
  | .exportLogical sa => commandWord 0x16 false sa 0
  | .eq sa sb => commandWord 0x17 false sa sb
  | .padd => commandWord 0x20 false 0 0
  | .paddb => commandWord 0x21 false 0 0
  | .padd8 => commandWord 0x22 false 0 0
  | .padd16 => commandWord 0x23 false 0 0
  | .pbuild m sa => commandWord 0x24 m sa 0
  | .pclear => commandWord 0x25 false 0 0

/-- The command the decoder of a block with the suggested parameters reads from the low `nbits` bits of `w`;
a command is one 32-bit word (30_encoding.md R100), so the bits above `nbits` are 0. -/
def decodeTableWord (nbits w : Nat) : Option Instr :=
  match decode Params.suggested (BitVec.ofNat 32 (w % 2 ^ nbits)) with
  | .ok i => some i
  | .error _ => none

end Sys2Proof
end

