-- ==== Sys2Proof/Machine/State.lean ====
section
/-! DEFINITION. The state of the block as plain data, with its reset value (10_state.md, 70_reset_and_hazards.md
section 1), and the reasons a step can stop. -/

namespace Sys2Proof.Machine

/-- The error codes STATUS.ERR can hold (60_exceptions.md R270). Codes 9 to 15 are never written, so the model
does not represent them (93_implementation_defined.md X6; log 11). -/
inductive ErrCode where
  /-- 0: the command completed. -/
  | ok
  /-- 1: R271. -/
  | invalidArgument
  /-- 2: R272. -/
  | indexOutOfRange
  /-- 3: R273. -/
  | illegalCommand
  /-- 4: R274. -/
  | noStore
  /-- 5: R275. -/
  | modeViolation
  /-- 6: R276. -/
  | capacity
  /-- 7: R277. -/
  | packerSpent
  /-- 8: R278. -/
  | windowOverrun
deriving DecidableEq, Repr

/-- One store slot (10_state.md R31). -/
structure Slot where
  /-- Whether the slot holds a constructed store. -/
  valid : Bool
  /-- Whether the store is the mutable variant. -/
  mutable : Bool
  /-- The logical byte count. -/
  n : Nat
  /-- The physical buffer, padding included. -/
  buf : List Byte
deriving DecidableEq, Repr

/-- The slot that holds no store, as reset and FREE leave it (10_state.md R31, 40_store_construction.md R138). -/
def Slot.empty : Slot := { valid := false, mutable := false, n := 0, buf := [] }

/-- One field of the packer's list (10_state.md R39). The width is 0 to 32 (42_packer.md R220), held as a Nat
(log 10). -/
structure Field where
  value : BitVec 64
  mask : BitVec 32
  width : Nat
deriving DecidableEq, Repr

/-- The packer (10_state.md R39). -/
structure Packer where
  /-- The accumulated fields, in insertion order. -/
  fields : List Field
  /-- The running count of committed bits. -/
  totalBits : Nat
  /-- Set by a successful PBUILD. -/
  spent : Bool
deriving DecidableEq, Repr

/-- The packer as reset and PCLEAR leave it (10_state.md R39, 42_packer.md R229). -/
def Packer.empty : Packer := { fields := [], totalBits := 0, spent := false }

/-- The contents of the DATA window (10_state.md R51): cells of (byte index, byte), indices strictly rising, no
cell equal to what an unlisted index reads as. -/
abbrev Memory := List Host.Cell

/-- What an unlisted byte of DATA reads as: the reset content, 0x00 (10_state.md R42). -/
def Memory.unlisted : Byte := 0x00

/-- The canonical form: strictly rising indices, and no cell that says what an unlisted one says. -/
abbrev Memory.wf (m : Memory) : Prop :=
  m.Pairwise (fun a b => a.1 < b.1) ∧ ∀ c ∈ m, c.2 ≠ Memory.unlisted

/-- What a bus access does (20_memory.md R72 to R77). -/
inductive Direction where
  | read
  /-- A write of `data`; an access narrower than 32 bits carries its data in the low bits (log 13). -/
  | write (data : Word)
deriving DecidableEq, Repr

/-- One bus access of a host: any address, any width in bits (20_memory.md R73 to R75). -/
structure BusAccess where
  addr : Nat
  bits : Nat
  dir : Direction
deriving DecidableEq, Repr

/-- An input of the block: a bus access, or the one reset event (70_reset_and_hazards.md R300). -/
inductive PortEvent where
  | access (a : BusAccess)
  | reset
deriving DecidableEq, Repr

/-- What the block answers to a bus access. -/
inductive Reply where
  /-- An 8-bit read of DATA was served (20_memory.md R74). -/
  | readByte (b : Byte)
  /-- A 32-bit read was served (R73, R74). -/
  | readWord (w : Word)
  /-- A supported write was taken, a CMD write after its command is done (R83). -/
  | written
  /-- An unsupported access: the error response (R75). -/
  | error
  /-- The address is outside the window: not this block's access (R71, 93_implementation_defined.md X8). -/
  | outside
deriving DecidableEq, Repr

/-- Everything the spec gives the block (10_state.md), and the host's side of the port. STATUS, PK_TOTAL,
PK_NFIELDS, ID, PARAM0, PARAM1 and CMD hold nothing of their own: they are computed when read
(Machine/Bus.lean). -/
structure State where
  /-- The parameters of the block (00_scope.md R11 to R14), which no step changes. -/
  params : Params
  /-- The store slots 0 to `NUM_SLOTS - 1` (10_state.md R31). -/
  slots : List Slot
  /-- The packer (10_state.md R39). -/
  pk : Packer
  /-- STATUS.ERR (10_state.md R44). -/
  err : ErrCode
  /-- OPA (10_state.md R45). -/
  opa : Word
  /-- OPB (10_state.md R45). -/
  opb : Word
  /-- VAL0 (10_state.md R46). -/
  val0 : Word
  /-- VAL1 (10_state.md R46). -/
  val1 : Word
  /-- VAL2 (10_state.md R46). -/
  val2 : Word
  /-- VAL3 (10_state.md R46). -/
  val3 : Word
  /-- RESULT (10_state.md R49). -/
  result : Word
  /-- RESULT2 (10_state.md R49). -/
  result2 : Word
  /-- The DATA window (10_state.md R51). -/
  data : Memory
  /-- The model's own: the inputs not yet handled, oldest first (20_memory.md R85; log 3). -/
  port : List PortEvent
  /-- The model's own: what the block answered to each access, newest first (70_reset_and_hazards.md R311;
  log 4). -/
  replies : List Reply
deriving DecidableEq, Repr

/-- The block of parameters `p` right after reset (70_reset_and_hazards.md R300), with nothing pending. -/
def State.resetWith (p : Params) : State where
  params := p
  slots := List.replicate p.numSlots Slot.empty
  pk := Packer.empty
  err := .ok
  opa := 0
  opb := 0
  val0 := 0
  val1 := 0
  val2 := 0
  val3 := 0
  result := 0
  result2 := 0
  data := []
  port := []
  replies := []

/-- The machine right after reset: a block of the suggested parameters (logs 1 and 2). -/
def State.reset : State := State.resetWith Params.suggested

/-- The reasons a step stops with a fault: none. An error of a command is a code in STATUS.ERR and the block
never stops (60_exceptions.md R282, 70_reset_and_hazards.md R311), so this type has no constructor. -/
inductive Fault where
deriving DecidableEq, Repr

/-- The reasons a step has no meaning. -/
inductive Refusal where
  /-- Raised by an arm of `exec` whose command has no meaning yet (none has it). Safe: the machine stops where
  the hardware goes on. -/
  | notModelled (mnemonic : String)
deriving DecidableEq, Repr

/-- What one step of this machine answers. -/
abbrev Result := Host.Outcome State Fault Refusal

end Sys2Proof.Machine
end

