-- ==== Sys2Proof/Machine/Flags.lean ====
section
/-! DEFINITION. The status flags: STATUS.ERR's codes, PSPENT and PFULL (10_state.md R44, 60_exceptions.md R270). -/

namespace Sys2Proof.Machine

/-- The numeric code of an error (60_exceptions.md R270). -/
def ErrCode.code : ErrCode → BitVec 4
  | .ok => 0
  | .invalidArgument => 1
  | .indexOutOfRange => 2
  | .illegalCommand => 3
  | .noStore => 4
  | .modeViolation => 5
  | .capacity => 6
  | .packerSpent => 7
  | .windowOverrun => 8

/-- STATUS.PSPENT: the value of `pk.spent`, live (10_state.md R44). -/
def State.pspent (s : State) : Bool := s.pk.spent

/-- STATUS.PFULL: the packer holds `MAX_FIELDS` fields, live (10_state.md R44). -/
def State.pfull (s : State) : Bool := decide (s.pk.fields.length = s.params.maxFields)

/-- The STATUS register: ERR in [3:0], PSPENT in [8], PFULL in [9], every other bit 0 (10_state.md R44). -/
def State.status (s : State) : Word :=
  s.err.code.setWidth 32 ||| ((BitVec.ofBool s.pspent).setWidth 32 <<< 8) |||
    ((BitVec.ofBool s.pfull).setWidth 32 <<< 9)

end Sys2Proof.Machine
end

