-- ==== Sys2Proof/Machine/Operands.lean ====
section
/-! DEFINITION. How commands read their operands: signed and unsigned readings, byte order, bits of a buffer,
the slice window and the field width (00_scope.md R17 and R19, 20_memory.md section 2, 41_store_access.md R174
and R175, 42_packer.md R220 and R226). -/

namespace Sys2Proof.Machine

/-- `s32`: the two's-complement reading of a register (00_scope.md R17). -/
def s32 (w : Word) : Int := w.toInt

/-- `u32` of an integer: its value modulo 2^32 (00_scope.md R17). -/
def u32 (i : Int) : Word := BitVec.ofInt 32 i

/-- `zext_32` of a bit. -/
def bitWord (b : Bool) : Word := (BitVec.ofBool b).setWidth 32

/-- `LE_N`: the unsigned integer whose byte `j` is `bs[j]` (00_scope.md R19). -/
def leNat : List Byte → Nat
  | [] => 0
  | b :: bs => b.toNat + 256 * leNat bs

/-- `bytesLE_N`: the `count` low bytes of `v`, byte 0 first (00_scope.md R19). -/
def bytesLE : (count : Nat) → (v : Nat) → List Byte
  | 0, _ => []
  | count + 1, v => BitVec.ofNat 8 v :: bytesLE count (v / 256)

/-- VAL[63:0], the pair of VAL1 and VAL0 (10_state.md R46). -/
def State.val64 (s : State) : BitVec 64 := s.val1 ++ s.val0

/-- VAL, the 128-bit value of VAL3 to VAL0 (10_state.md R46). -/
def State.val128 (s : State) : BitVec 128 := s.val3 ++ s.val2 ++ s.val1 ++ s.val0

/-- `bitCount(s) = 8 * n(s)` (00_scope.md R22). -/
def Slot.bitCount (x : Slot) : Nat := 8 * x.n

/-- `bufLen(s) = max(8, n(s))` (00_scope.md R22, 10_state.md R33). -/
def Slot.bufLen (x : Slot) : Nat := max 8 x.n

/-- Byte `k` of the physical buffer. Every index a command reaches lies in the buffer of a well-formed slot
(20_memory.md R82); elsewhere this is 0 (log 9). -/
def Slot.byte (x : Slot) (k : Nat) : Byte := x.buf.getD k 0x00

/-- The `count` buffer bytes from `start` on. -/
def Slot.bytes (x : Slot) (start count : Nat) : List Byte :=
  (List.range count).map fun k => x.byte (start + k)

/-- `bit(s, i)`: bit `i mod 8` of byte `i / 8` (20_memory.md R78). -/
def Slot.bit (x : Slot) (i : Nat) : Bool := (x.byte (i / 8)).getLsbD (i % 8)

/-- `windowStart(s, start)` (41_store_access.md R174). -/
def Slot.windowStart (x : Slot) (start : Nat) : Nat := min (start / 8) (x.bufLen - 8)

/-- The 8-byte window at byte `ws` as an unsigned 64-bit little-endian integer (20_memory.md R80). -/
def Slot.window (x : Slot) (ws : Nat) : BitVec 64 := BitVec.ofNat 64 (leNat (x.bytes ws 8))

/-- `extract(W, off, length)` by two 64-bit logical shifts (41_store_access.md R175). -/
def extract (w : BitVec 64) (off length : Nat) : BitVec 64 :=
  (w <<< (64 - off - length)) >>> (64 - length)

/-- The loop of `width` (42_packer.md R220): count 1-bits of `mask` from bit `w` up, for at most `fuel` bits. -/
def countOnes (mask : BitVec 32) : (fuel w : Nat) → Nat
  | 0, w => w
  | fuel + 1, w => if mask.getLsbD w then countOnes mask fuel (w + 1) else w

/-- `width(mask)`: the number of contiguous 1-bits from bit 0 up, 0 to 32 (42_packer.md R220). -/
def fieldWidth (mask : BitVec 32) : Nat := countOnes mask 32 0

/-- The packed integer and its bit length after the fields, from the integer `acc` and length `pos` before
them (42_packer.md R226): each value cut to its width and placed at the running position. -/
def packInto : List Field → (acc pos : Nat) → Nat × Nat
  | [], acc, pos => (acc, pos)
  | f :: fs, acc, pos =>
    packInto fs (acc ||| ((f.value.toNat % 2 ^ f.width) <<< pos)) (pos + f.width)

/-- `pack(fields)`: the bytes PBUILD produces (42_packer.md R226). -/
def pack (fields : List Field) : List Byte :=
  let packed := packInto fields 0 0
  bytesLE ((packed.2 + 7) / 8) packed.1

end Sys2Proof.Machine
end

