-- ==== Sys2Proof/Machine/Ops.lean ====
section
/-! DEFINITION. The named operations over the DATA window, the slots and the packer, and the end of a command:
completing it, or raising an error (00_scope.md R19, R20; 40_store_construction.md R130; 42_packer.md R222). -/

namespace Sys2Proof.Machine

/-- The byte of DATA at index `k`. -/
def Memory.read : Memory → Nat → Byte
  | [], _ => Memory.unlisted
  | (a, b) :: rest, k => if a = k then b else Memory.read rest k

/-- Store byte `v` at index `k`, keeping the canonical form: storing what an unlisted index reads as removes
the cell. -/
def Memory.write : Memory → Nat → Byte → Memory
  | [], k, v => if v = Memory.unlisted then [] else [(k, v)]
  | (a, b) :: rest, k, v =>
    if k < a then (if v = Memory.unlisted then (a, b) :: rest else (k, v) :: (a, b) :: rest)
    else if k = a then (if v = Memory.unlisted then rest else (k, v) :: rest)
    else (a, b) :: Memory.write rest k v

/-- `MemRead(DATA+k, n)` (00_scope.md R19). -/
def Memory.readBytes (m : Memory) (k n : Nat) : List Byte :=
  (List.range n).map fun j => m.read (k + j)

/-- `MemWrite(DATA+k, n, bs)` with `n` the length of `bs` (00_scope.md R19). -/
def Memory.writeBytes : Memory → Nat → List Byte → Memory
  | m, _, [] => m
  | m, k, b :: bs => (m.write k b).writeBytes (k + 1) bs

/-- Slot `sa`. The decoder refuses a slot number that names no slot (30_encoding.md R104); of such a number
this is the empty slot (log 8). -/
def State.slot (s : State) (sa : SlotNum) : Slot := s.slots.getD sa.toNat Slot.empty

/-- The state with slot `sa` replaced whole. -/
def State.setSlot (s : State) (sa : SlotNum) (x : Slot) : State :=
  { s with slots := s.slots.set sa.toNat x }

/-- `raise E`, the taking of an error, shared by every command and by the decoder (00_scope.md R20,
60_exceptions.md R279): STATUS.ERR holds the code and every other piece of state is as it was before the
command. Nothing returns from it: the next command runs normally (R282). -/
def raise (e : ErrCode) (s : State) : Result := .next { s with err := e }

/-- The end of a command without `raise`: STATUS.ERR becomes 0 (00_scope.md R20). -/
def complete (s : State) : Result := .next { s with err := .ok }

/-- The end of a command issued in `s` whose last part answers a state or an error. -/
def conclude (s : State) : Except ErrCode State → Result
  | .ok t => complete t
  | .error e => raise e s

/-- The slot that `construct` builds from `bs` with variant `m`: the bytes, then zero bytes up to 8
(40_store_construction.md R130, 10_state.md R33). -/
def builtSlot (bs : List Byte) (m : Bool) : Slot where
  valid := true
  mutable := m
  n := bs.length
  buf := bs ++ List.replicate (max 8 bs.length - bs.length) 0x00

/-- `construct(sa, bs, m)` (40_store_construction.md R130). -/
def construct (sa : SlotNum) (bs : List Byte) (m : Bool) (s : State) : Except ErrCode State :=
  if bs.length = 0 then .error .invalidArgument
  else if s.params.maxBytes < bs.length then .error .capacity
  else .ok (s.setSlot sa (builtSlot bs m))

/-- `addField(value, mask)` (42_packer.md R222), with the range of R221 in RESULT and RESULT2. -/
def addField (value : BitVec 64) (mask : BitVec 32) (s : State) : Except ErrCode State :=
  if s.pk.spent = true then .error .packerSpent
  else if s.pk.fields.length = s.params.maxFields then .error .capacity
  else
    let w := fieldWidth mask
    let lo := s.pk.totalBits
    .ok { s with
      pk := { s.pk with fields := s.pk.fields ++ [⟨value, mask, w⟩], totalBits := lo + w }
      result := u32 lo
      result2 := u32 (lo + w - 1) }

end Sys2Proof.Machine
end

