-- ==== Sys2Proof/Machine/Bus.lean ====
section
/-! DEFINITION. The register window: the register map, bus reads and writes, the reset event, and what a host
sees of a reply (10_state.md section 4, 20_memory.md sections 2 and 3, 70_reset_and_hazards.md R300). -/

namespace Sys2Proof.Machine

/-- The named registers (10_state.md R42). -/
inductive Reg where
  | cmd | status | opa | opb | val0 | val1 | val2 | val3
  | result | result2 | pkTotal | pkNfields | id | param0 | param1
deriving DecidableEq, Repr

/-- The offset of a register from `BASE` (10_state.md R42). -/
def Reg.offset : Reg → Nat
  | .cmd => 0x000
  | .status => 0x004
  | .opa => 0x008
  | .opb => 0x00C
  | .val0 => 0x010
  | .val1 => 0x014
  | .val2 => 0x018
  | .val3 => 0x01C
  | .result => 0x020
  | .result2 => 0x024
  | .pkTotal => 0x028
  | .pkNfields => 0x02C
  | .id => 0x030
  | .param0 => 0x034
  | .param1 => 0x038

/-- The register at an offset; `none` at a reserved or unaligned one (10_state.md R42). -/
def Reg.atOffset (off : Nat) : Option Reg :=
  match off with
  | 0x000 => some .cmd
  | 0x004 => some .status
  | 0x008 => some .opa
  | 0x00C => some .opb
  | 0x010 => some .val0
  | 0x014 => some .val1
  | 0x018 => some .val2
  | 0x01C => some .val3
  | 0x020 => some .result
  | 0x024 => some .result2
  | 0x028 => some .pkTotal
  | 0x02C => some .pkNfields
  | 0x030 => some .id
  | 0x034 => some .param0
  | 0x038 => some .param1
  | _ => none

/-- The offset of the DATA window (10_state.md R42). -/
def dataOffset : Nat := 0x100

/-- ID, the identification constant (00_scope.md R3). -/
def idWord : Word := 0x42430007

/-- PARAM0: `NUM_SLOTS` in [7:0], `MAX_FIELDS` in [31:16], bits [15:8] zero (10_state.md R47). -/
def param0Word (p : Params) : Word :=
  BitVec.ofNat 16 p.maxFields ++ (0#8) ++ BitVec.ofNat 8 p.numSlots

/-- `x[NAME]`: what a register reads as (10_state.md R43 to R49). -/
def State.reg (s : State) : Reg → Word
  | .cmd => 0
  | .status => s.status
  | .opa => s.opa
  | .opb => s.opb
  | .val0 => s.val0
  | .val1 => s.val1
  | .val2 => s.val2
  | .val3 => s.val3
  | .result => s.result
  | .result2 => s.result2
  | .pkTotal => BitVec.ofNat 32 s.pk.totalBits
  | .pkNfields => BitVec.ofNat 32 s.pk.fields.length
  | .id => idWord
  | .param0 => param0Word s.params
  | .param1 => BitVec.ofNat 32 s.params.maxBytes

/-- The state after a host's 32-bit write of a register that stores it; a read-only register ignores the write
(10_state.md R44 to R49, 20_memory.md R76), and CMD stores nothing. -/
def State.setReg (s : State) (r : Reg) (w : Word) : State :=
  match r with
  | .opa => { s with opa := w }
  | .opb => { s with opb := w }
  | .val0 => { s with val0 := w }
  | .val1 => { s with val1 := w }
  | .val2 => { s with val2 := w }
  | .val3 => { s with val3 := w }
  | .cmd => s
  | .status => s
  | .result => s
  | .result2 => s
  | .pkTotal => s
  | .pkNfields => s
  | .id => s
  | .param0 => s
  | .param1 => s

/-- The offset of a bus address inside the window, `none` outside it (20_memory.md R71). -/
def State.windowOffset (s : State) (addr : Nat) : Option Nat :=
  if s.params.base ≤ addr ∧ addr - s.params.base < dataOffset + s.params.maxBytes then
    some (addr - s.params.base)
  else none

/-- Whether the register range accepts an access (20_memory.md R73). -/
def regAccepts (off bits : Nat) : Bool :=
  decide (off < dataOffset) && decide (bits = 32) && decide (off % 4 = 0)

/-- Whether the DATA window accepts an access at byte index `k` (20_memory.md R74). -/
def dataAccepts (maxBytes k bits : Nat) : Bool :=
  (decide (bits = 8) && decide (k < maxBytes)) ||
    (decide (bits = 32) && decide (k % 4 = 0) && decide (k + 4 ≤ maxBytes))

/-- A read at an offset of the window (20_memory.md R72 to R77). It changes nothing. -/
def State.busRead (s : State) (off bits : Nat) : Reply :=
  if off < dataOffset then
    if regAccepts off bits then
      match Reg.atOffset off with
      | some r => .readWord (s.reg r)
      | none => .readWord 0
    else .error
  else
    let k := off - dataOffset
    if dataAccepts s.params.maxBytes k bits then
      if bits = 8 then .readByte (s.data.read k)
      else .readWord (BitVec.ofNat 32 (leNat (s.data.readBytes k 4)))
    else .error

/-- What a write at an offset of the window asks for. -/
inductive WriteEffect where
  /-- The write is done, and this is the state after it. -/
  | stored (t : State)
  /-- The write goes to CMD: run this command word (10_state.md R43). -/
  | command (w : Word)
  /-- The access is unsupported (20_memory.md R75). -/
  | unsupported

/-- A write of `w` at an offset of the window (20_memory.md R72 to R77). -/
def State.busWrite (s : State) (off bits : Nat) (w : Word) : WriteEffect :=
  if off < dataOffset then
    if regAccepts off bits then
      match Reg.atOffset off with
      | some .cmd => .command w
      | some r => .stored (s.setReg r w)
      | none => .stored s
    else .unsupported
  else
    let k := off - dataOffset
    if dataAccepts s.params.maxBytes k bits then
      if bits = 8 then .stored { s with data := s.data.write k (w.extractLsb' 0 8) }
      else .stored { s with data := s.data.writeBytes k (bytesLE 4 w.toNat) }
    else .unsupported

/-- The state with one more answer to the host. -/
def State.reply (s : State) (r : Reply) : State := { s with replies := r :: s.replies }

/-- The reset event (70_reset_and_hazards.md R300): every piece of the block's state at its reset value; the
host's pending inputs and the answers it has had are the host's and stay (log 7). -/
def State.afterReset (s : State) : State :=
  { State.resetWith s.params with port := s.port, replies := s.replies }

/-- Whether an access is a write. -/
def Direction.isWrite : Direction → Bool
  | .read => false
  | .write _ => true

/-- What the host that made access `a` sees of the block's reply to it, the access being number `occasion` of
the run. An error response and an address outside the window are the platform's to show (20_memory.md R75,
93_implementation_defined.md X8). -/
def hostSees (a : BusAccess) (occasion : Nat) : Reply → HostView
  | .readByte b => .data (b.setWidth 32)
  | .readWord w => .data w
  | .written => .nothing
  | .error => Config.busErrorResponse a.dir.isWrite a.addr a.bits occasion
  | .outside => Config.outsideResponse a.dir.isWrite a.addr a.bits occasion

end Sys2Proof.Machine
end

