-- ==== Sys2Proof/Machine/Control.lean ====
section
/-! DEFINITION. The control command (43_control.md). -/

namespace Sys2Proof.Machine

/-- NOP (43_control.md R260). -/
def execNop (s : State) : Result := complete s

end Sys2Proof.Machine
end

