-- ==== Sys2Proof/Machine/Packer.lean ====
section
/-! DEFINITION. The packer commands (42_packer.md). -/

namespace Sys2Proof.Machine

/-- PADD (42_packer.md R222): value VAL[63:0], mask OPA. -/
def execPadd (s : State) : Result := conclude s (addField s.val64 s.opa s)

/-- PADDB (42_packer.md R223): the boolean OPA[0], mask 1. -/
def execPaddb (s : State) : Result :=
  conclude s (addField ((BitVec.ofBool (s.opa.getLsbD 0)).setWidth 64) 0x00000001 s)

/-- PADD8 (42_packer.md R224): the byte VAL0[7:0]. -/
def execPadd8 (s : State) : Result :=
  conclude s (addField ((s.val0.extractLsb' 0 8).setWidth 64) 0x000000FF s)

/-- PADD16 (42_packer.md R225): VAL0[15:0], stored zero-extended. -/
def execPadd16 (s : State) : Result :=
  conclude s (addField ((s.val0.extractLsb' 0 16).setWidth 64) 0x0000FFFF s)

/-- The last part of PBUILD (42_packer.md R228): construct the slot, then mark the packer spent and write the
results. -/
def buildStore (sa : SlotNum) (bs : List Byte) (m : Bool) (s : State) : Except ErrCode State :=
  match construct sa bs m s with
  | .error e => .error e
  | .ok t => .ok { t with
      pk := { t.pk with spent := true }
      result := u32 (bs.length : Int)
      result2 := u32 (s.pk.totalBits : Int) }

/-- PBUILD (42_packer.md R228). -/
def execPbuild (m : Bool) (sa : SlotNum) (s : State) : Result :=
  if s.pk.spent = true then raise .packerSpent s
  else if s.pk.totalBits = 0 then raise .invalidArgument s
  else
    let bs := pack s.pk.fields
    if s.params.maxBytes < bs.length then raise .capacity s
    else conclude s (buildStore sa bs m s)

/-- The inner loop of the accumulator algorithm (42_packer.md R227): flush one byte while at least 8 bits are
buffered, for at most `fuel` bytes. -/
def flushBytes : (fuel : Nat) → (acc : BitVec 64) → (k : Nat) → List Byte × BitVec 64 × Nat
  | 0, acc, k => ([], acc, k)
  | fuel + 1, acc, k =>
    if 8 ≤ k then
      let rest := flushBytes fuel (acc >>> 8) (k - 8)
      (acc.setWidth 8 :: rest.1, rest.2)
    else ([], acc, k)

/-- The outer loop of the accumulator algorithm (42_packer.md R227), `k` bits of `acc` being buffered. -/
def accumulate : List Field → (acc : BitVec 64) → (k : Nat) → List Byte
  | [], acc, k => if 0 < k then [acc.setWidth 8] else []
  | f :: fs, acc, k =>
    let merged := acc ^^^ (BitVec.ofNat 64 (f.value.toNat % 2 ^ f.width) <<< k)
    let flushed := flushBytes (k + f.width) merged (k + f.width)
    flushed.1 ++ accumulate fs flushed.2.1 flushed.2.2

/-- The bytes of the accumulator algorithm, which an implementation may use in place of `pack`
(42_packer.md R227). PBUILD itself follows R226. -/
def packAccumulator (fields : List Field) : List Byte := accumulate fields 0 0

/-- PCLEAR (42_packer.md R229). -/
def execPclear (s : State) : Result := complete { s with pk := Packer.empty }

end Sys2Proof.Machine
end

