-- ==== Sys2Proof/Machine/StoreAccess.lean ====
section
/-! DEFINITION. The store access commands (41_store_access.md). Each begins with the slot check of R170, and its
checks stand in the order of 60_exceptions.md R280. -/

namespace Sys2Proof.Machine

/-- The byte SET writes: bit `j` of `b` made `v`, by 8-bit OR or AND-NOT (41_store_access.md R172). -/
def setBit (b : Byte) (j : Nat) (v : Bool) : Byte :=
  if v then b ||| ((1 : Byte) <<< j) else b &&& ~~~((1 : Byte) <<< j)

/-- GET (41_store_access.md R171). -/
def execGet (sa : SlotNum) (s : State) : Result :=
  let x := s.slot sa
  let i := s32 s.opa
  if x.valid = false then raise .noStore s
  else if i < 0 ∨ (x.bitCount : Int) ≤ i then raise .indexOutOfRange s
  else complete { s with result := bitWord (x.bit i.toNat) }

/-- SET (41_store_access.md R172). -/
def execSet (sa : SlotNum) (s : State) : Result :=
  let x := s.slot sa
  let i := s32 s.opa
  if x.valid = false then raise .noStore s
  else if x.mutable = false then raise .modeViolation s
  else if i < 0 ∨ (x.bitCount : Int) ≤ i then raise .indexOutOfRange s
  else
    let k := i.toNat / 8
    let b := setBit (x.byte k) (i.toNat % 8) (s.opb.getLsbD 0)
    complete (s.setSlot sa { x with buf := x.buf.set k b })

/-- SLICE (41_store_access.md R173 to R176). -/
def execSlice (sa : SlotNum) (s : State) : Result :=
  let x := s.slot sa
  let start := s32 s.opa
  let length := s32 s.opb
  if x.valid = false then raise .noStore s
  else if start < 0 ∨ (x.bitCount : Int) ≤ start then raise .indexOutOfRange s
  else if length < 1 ∨ 32 < length then raise .indexOutOfRange s
  else if length = 1 then complete { s with result := bitWord (x.bit start.toNat) }
  else
    let ws := x.windowStart start.toNat
    let off := start.toNat - 8 * ws
    if 64 < off + length.toNat then raise .windowOverrun s
    else complete { s with result := (extract (x.window ws) off length.toNat).setWidth 32 }

/-- COUNT (41_store_access.md R190). -/
def execCount (sa : SlotNum) (s : State) : Result :=
  let x := s.slot sa
  if x.valid = false then raise .noStore s
  else complete { s with result := u32 (x.bitCount : Int) }

/-- NBYTES (41_store_access.md R191). -/
def execNbytes (sa : SlotNum) (s : State) : Result :=
  let x := s.slot sa
  if x.valid = false then raise .noStore s
  else complete { s with result := u32 (x.n : Int) }

/-- EXPORT (41_store_access.md R195): the whole physical buffer to DATA. -/
def execExportAll (sa : SlotNum) (s : State) : Result :=
  let x := s.slot sa
  if x.valid = false then raise .noStore s
  else complete { s with
    data := s.data.writeBytes 0 (x.bytes 0 x.bufLen), result := u32 (x.bufLen : Int) }

/-- EXPORTL (41_store_access.md R196): the logical bytes to DATA. -/
def execExportLogical (sa : SlotNum) (s : State) : Result :=
  let x := s.slot sa
  if x.valid = false then raise .noStore s
  else complete { s with data := s.data.writeBytes 0 (x.bytes 0 x.n), result := u32 (x.n : Int) }

/-- EQ (41_store_access.md R200). -/
def execEq (sa sb : SlotNum) (s : State) : Result :=
  let x := s.slot sa
  let y := s.slot sb
  if x.valid = false then raise .noStore s
  else if x.mutable = true then raise .modeViolation s
  else if y.valid = false then complete { s with result := 0 }
  else if y.mutable = true then raise .modeViolation s
  else if sa = sb then complete { s with result := 1 }
  else
    let same := decide (x.n = y.n) && decide (x.bytes 0 x.n = y.bytes 0 x.n)
    complete { s with result := bitWord same }

end Sys2Proof.Machine
end

