-- ==== Sys2Proof/Machine/StoreConstruction.lean ====
section
/-! DEFINITION. The store construction commands (40_store_construction.md). -/

namespace Sys2Proof.Machine

/-- LOADB (40_store_construction.md R131). -/
def execLoadb (m : Bool) (sa : SlotNum) (s : State) : Result :=
  let n := s.opa.toNat
  if n = 0 then raise .invalidArgument s
  else if s.params.maxBytes < n then raise .capacity s
  else conclude s (construct sa (s.data.readBytes 0 n) m s)

/-- LOAD8 (40_store_construction.md R132): VAL[7:0]. -/
def execLoad8 (m : Bool) (sa : SlotNum) (s : State) : Result :=
  conclude s (construct sa (bytesLE 1 s.val0.toNat) m s)

/-- LOAD16 (40_store_construction.md R133): VAL[15:0]. -/
def execLoad16 (m : Bool) (sa : SlotNum) (s : State) : Result :=
  conclude s (construct sa (bytesLE 2 s.val0.toNat) m s)

/-- LOAD32 (40_store_construction.md R134): VAL[31:0]. -/
def execLoad32 (m : Bool) (sa : SlotNum) (s : State) : Result :=
  conclude s (construct sa (bytesLE 4 s.val0.toNat) m s)

/-- LOAD64 (40_store_construction.md R135): VAL[63:0]. -/
def execLoad64 (m : Bool) (sa : SlotNum) (s : State) : Result :=
  conclude s (construct sa (bytesLE 8 s.val64.toNat) m s)

/-- LOAD128 (40_store_construction.md R136): VAL[127:0] as one 128-bit integer. -/
def execLoad128 (m : Bool) (sa : SlotNum) (s : State) : Result :=
  conclude s (construct sa (bytesLE 16 s.val128.toNat) m s)

/-- COPY (40_store_construction.md R137): the logical bytes of slot SB, read before any write. -/
def execCopy (m : Bool) (sa sb : SlotNum) (s : State) : Result :=
  let src := s.slot sb
  if src.valid = false then raise .noStore s
  else conclude s (construct sa (src.bytes 0 src.n) m s)

/-- FREE (40_store_construction.md R138). -/
def execFree (sa : SlotNum) (s : State) : Result :=
  complete (s.setSlot sa Slot.empty)

end Sys2Proof.Machine
end

