-- ==== Sys2Proof/Machine/Dispatch.lean ====
section
/-! DEFINITION. The meaning of each command, one arm per constructor of Instr. -/

namespace Sys2Proof.Machine

def exec (i : Instr) (s : State) : Host.Outcome State Fault Refusal :=
  match i with
  | .nop => Sys2Proof.Machine.execNop s
  | .loadb m sa => Sys2Proof.Machine.execLoadb m sa s
  | .load8 m sa => Sys2Proof.Machine.execLoad8 m sa s
  | .load16 m sa => Sys2Proof.Machine.execLoad16 m sa s
  | .load32 m sa => Sys2Proof.Machine.execLoad32 m sa s
  | .load64 m sa => Sys2Proof.Machine.execLoad64 m sa s
  | .load128 m sa => Sys2Proof.Machine.execLoad128 m sa s
  | .copy m sa sb => Sys2Proof.Machine.execCopy m sa sb s
  | .free sa => Sys2Proof.Machine.execFree sa s
  | .get sa => Sys2Proof.Machine.execGet sa s
  | .set sa => Sys2Proof.Machine.execSet sa s
  | .slice sa => Sys2Proof.Machine.execSlice sa s
  | .count sa => Sys2Proof.Machine.execCount sa s
  | .nbytes sa => Sys2Proof.Machine.execNbytes sa s
  | .exportAll sa => Sys2Proof.Machine.execExportAll sa s
  | .exportLogical sa => Sys2Proof.Machine.execExportLogical sa s
  | .eq sa sb => Sys2Proof.Machine.execEq sa sb s
  | .padd => Sys2Proof.Machine.execPadd s
  | .paddb => Sys2Proof.Machine.execPaddb s
  | .padd8 => Sys2Proof.Machine.execPadd8 s
  | .padd16 => Sys2Proof.Machine.execPadd16 s
  | .pbuild m sa => Sys2Proof.Machine.execPbuild m sa s
  | .pclear => Sys2Proof.Machine.execPclear s

end Sys2Proof.Machine
end

