-- ==== Sys2Proof/Machine/Port.lean ====
section
/-! DEFINITION. What the block does with one input: a bus access, a command word, the reset event
(10_state.md R43, 20_memory.md sections 3 and 5, 30_encoding.md R104, 70_reset_and_hazards.md R300). -/

namespace Sys2Proof.Machine

/-- A CMD write of `w`: decode it and run the command, or raise IllegalCommand (10_state.md R43,
30_encoding.md R104). -/
def runCommand (w : Word) (s : State) : Result :=
  match decode s.params w with
  | .ok i => exec i s
  | .error _ => raise .illegalCommand s

/-- The outcome of a command, with its CMD write answered after it (20_memory.md R83). -/
def answered : Result → Result
  | .next t => .next (t.reply .written)
  | .fault f => .fault f
  | .refused r => .refused r

/-- One bus access (20_memory.md R71 to R77). -/
def handleAccess (a : BusAccess) (s : State) : Result :=
  match s.windowOffset a.addr with
  | none => .next (s.reply .outside)
  | some off =>
    match a.dir with
    | .read => .next (s.reply (s.busRead off a.bits))
    | .write w =>
      match s.busWrite off a.bits w with
      | .stored t => .next (t.reply .written)
      | .command c => answered (runCommand c s)
      | .unsupported => .next (s.reply .error)

/-- One input of the block. -/
def handleEvent : PortEvent → State → Result
  | .access a, s => handleAccess a s
  | .reset, s => .next s.afterReset

/-- The 32-bit write of `w` to CMD, which is how a command reaches the block (10_state.md R43). -/
def cmdWrite (p : Params) (w : Word) : BusAccess :=
  { addr := p.base + Reg.cmd.offset, bits := 32, dir := .write w }

/-- The next input of a host that issues the command whose word's low `nbits` bits are those of `w`. -/
def commandEvent (p : Params) (nbits w : Nat) : PortEvent :=
  .access (cmdWrite p (BitVec.ofNat 32 (w % 2 ^ nbits)))

end Sys2Proof.Machine
end

