-- ==== Sys2Proof/Machine/Step.lean ====
section
/-! DEFINITION. One step of the block: it handles the oldest pending input whole (20_memory.md R83, R85). -/

namespace Sys2Proof.Machine

/-- One step: the oldest pending input is taken and handled; with none pending the block waits
(70_reset_and_hazards.md R302). -/
def step (s : State) : Host.Outcome State Fault Refusal :=
  match s.port with
  | [] => .next s
  | e :: rest => handleEvent e { s with port := rest }

/-- `s` with the CMD write of the word whose low `nbits` bits are those of `w` as its next input (log 3). -/
def State.withFetchWord (s : State) (nbits w : Nat) : State :=
  { s with port := commandEvent s.params nbits w :: s.port }

end Sys2Proof.Machine
end

