-- ==== Sys2Proof/Machine/Script.lean ====
section
/-! DEFINITION. The host's command scripts (30_encoding.md R109, R110): the primitive lines as bus accesses, the
pseudo-instructions as lines, and the text of both. A script is how a host comes to fill `State.port` (log 3). -/

namespace Sys2Proof.Machine

/-- A primitive line of a script (30_encoding.md R109). -/
inductive ScriptLine where
  /-- `wr REG, imm32`. -/
  | wr (r : Reg) (imm : Word)
  /-- `wrb DATA+k, imm8`. -/
  | wrb (k : Nat) (imm : Byte)
  /-- `wrw DATA+k, imm32`. -/
  | wrw (k : Nat) (imm : Word)
  /-- `rd REG`. -/
  | rd (r : Reg)
  /-- `rdb DATA+k`. -/
  | rdb (k : Nat)
  /-- `MNEMONIC[.m] [sA[, sB]]`. -/
  | command (i : Instr)
deriving DecidableEq, Repr

/-- The bus access a primitive line makes (30_encoding.md R109). -/
def ScriptLine.access (p : Params) : ScriptLine → BusAccess
  | .wr r imm => { addr := p.base + r.offset, bits := 32, dir := .write imm }
  | .wrb k imm => { addr := p.base + dataOffset + k, bits := 8, dir := .write (imm.setWidth 32) }
  | .wrw k imm => { addr := p.base + dataOffset + k, bits := 32, dir := .write imm }
  | .rd r => { addr := p.base + r.offset, bits := 32, dir := .read }
  | .rdb k => { addr := p.base + dataOffset + k, bits := 8, dir := .read }
  | .command i => cmdWrite p (encode i)

/-- A pseudo-instruction (30_encoding.md R110). -/
inductive Pseudo where
  | get (sa : SlotNum) (i : Word)
  | set (sa : SlotNum) (i v : Word)
  | slice (sa : SlotNum) (start len : Word)
  | loadb (m : Bool) (sa : SlotNum) (bytes : List Byte)
  | load8 (m : Bool) (sa : SlotNum) (v : Word)
  | load16 (m : Bool) (sa : SlotNum) (v : Word)
  | load32 (m : Bool) (sa : SlotNum) (v : Word)
  | load64 (m : Bool) (sa : SlotNum) (v : BitVec 64)
  | load128 (m : Bool) (sa : SlotNum) (v : BitVec 128)
  | padd (v : BitVec 64) (mask : Word)
  | paddb (b : Word)
  | padd8 (v : Word)
  | padd16 (v : Word)
  | build (m : Bool) (sa : SlotNum)
  | count (sa : SlotNum)
  | eq (sa sb : SlotNum)
  | check
deriving DecidableEq, Repr

/-- Word `j` of a wide value, `v[32j+31:32j]`. -/
def wordAt {n : Nat} (v : BitVec n) (j : Nat) : Word := v.extractLsb' (32 * j) 32

/-- The 8-bit writes of a byte list to DATA from index `k` on. -/
def stageBytes : Nat → List Byte → List ScriptLine
  | _, [] => []
  | k, b :: bs => .wrb k b :: stageBytes (k + 1) bs

/-- The expansion of a pseudo-instruction (30_encoding.md R110). -/
def Pseudo.expand : Pseudo → List ScriptLine
  | .get sa i => [.wr .opa i, .command (.get sa), .rd .result]
  | .set sa i v => [.wr .opa i, .wr .opb v, .command (.set sa)]
  | .slice sa start len => [.wr .opa start, .wr .opb len, .command (.slice sa), .rd .result]
  | .loadb m sa bytes =>
    stageBytes 0 bytes ++ [.wr .opa (BitVec.ofNat 32 bytes.length), .command (.loadb m sa)]
  | .load8 m sa v => [.wr .val0 v, .command (.load8 m sa)]
  | .load16 m sa v => [.wr .val0 v, .command (.load16 m sa)]
  | .load32 m sa v => [.wr .val0 v, .command (.load32 m sa)]
  | .load64 m sa v => [.wr .val0 (wordAt v 0), .wr .val1 (wordAt v 1), .command (.load64 m sa)]
  | .load128 m sa v => [.wr .val0 (wordAt v 0), .wr .val1 (wordAt v 1), .wr .val2 (wordAt v 2),
      .wr .val3 (wordAt v 3), .command (.load128 m sa)]
  | .padd v mask => [.wr .val0 (wordAt v 0), .wr .val1 (wordAt v 1), .wr .opa mask, .command .padd,
      .rd .result, .rd .result2]
  | .paddb b => [.wr .opa b, .command .paddb, .rd .result, .rd .result2]
  | .padd8 v => [.wr .val0 v, .command .padd8, .rd .result, .rd .result2]
  | .padd16 v => [.wr .val0 v, .command .padd16, .rd .result, .rd .result2]
  | .build m sa => [.command (.pbuild m sa), .rd .status]
  | .count sa => [.command (.count sa), .rd .result]
  | .eq sa sb => [.command (.eq sa sb), .rd .result]
  | .check => [.rd .status]

/-- The inputs a script's lines become, in order. -/
def scriptEvents (p : Params) (lines : List ScriptLine) : List PortEvent :=
  lines.map fun l => .access (l.access p)

/-! ### The text of a script line -/

/-- The token read so far, last character first, as a list of none or one. -/
def closeToken (cur : List Char) : List String :=
  if cur.isEmpty then [] else [String.ofList cur.reverse]

/-- The tokens of a line: its characters before any `;`, cut at blanks and commas. `cur` is the token being
read. -/
def scriptTokens : List Char → (cur : List Char) → List String
  | [], cur => closeToken cur
  | c :: cs, cur =>
    if c = ';' then closeToken cur
    else if c = ' ' ∨ c = ',' ∨ c = '\t' then closeToken cur ++ scriptTokens cs []
    else scriptTokens cs (c :: cur)

/-- The value of a digit. -/
def digitValue (c : Char) : Option Nat :=
  if '0' ≤ c ∧ c ≤ '9' then some (c.toNat - '0'.toNat)
  else if 'a' ≤ c ∧ c ≤ 'f' then some (c.toNat - 'a'.toNat + 10)
  else if 'A' ≤ c ∧ c ≤ 'F' then some (c.toNat - 'A'.toNat + 10)
  else none

/-- The value of the digits after a number `acc` in the given base. -/
def digitsValue (base : Nat) : List Char → (acc : Nat) → Option Nat
  | [], acc => some acc
  | c :: cs, acc =>
    match digitValue c with
    | some d => if d < base then digitsValue base cs (base * acc + d) else none
    | none => none

/-- A number: decimal, hexadecimal with `0x`, or negative decimal (30_encoding.md R109). -/
def parseNumber (t : String) : Option Int :=
  match t.toList with
  | [] => none
  | '0' :: 'x' :: d :: ds => (digitsValue 16 (d :: ds) 0).map Int.ofNat
  | '-' :: d :: ds => (digitsValue 10 (d :: ds) 0).map fun v => -Int.ofNat v
  | ds => (digitsValue 10 ds 0).map Int.ofNat

/-- An immediate of `n` bits. A negative decimal stands for its 32-bit two's-complement word, so it is taken at
32 bits only (30_encoding.md R109). -/
def parseImm (n : Nat) (t : String) : Option (BitVec n) :=
  match parseNumber t with
  | some v =>
    if 0 ≤ v ∧ v < 2 ^ n then some (BitVec.ofInt n v)
    else if n = 32 ∧ -(2 ^ 31) ≤ v ∧ v < 0 then some (BitVec.ofInt n v)
    else none
  | none => none

/-- A slot operand: exactly the sixteen spellings `s0` to `s15` of 30_encoding.md R109. Text spelled another way
is no slot operand (log 15). -/
def parseSlot (t : String) : Option SlotNum :=
  match t with
  | "s0" => some 0
  | "s1" => some 1
  | "s2" => some 2
  | "s3" => some 3
  | "s4" => some 4
  | "s5" => some 5
  | "s6" => some 6
  | "s7" => some 7
  | "s8" => some 8
  | "s9" => some 9
  | "s10" => some 10
  | "s11" => some 11
  | "s12" => some 12
  | "s13" => some 13
  | "s14" => some 14
  | "s15" => some 15
  | _ => none

/-- A DATA operand `DATA+k` (30_encoding.md R109). -/
def parseData (t : String) : Option Nat :=
  match t.toList with
  | 'D' :: 'A' :: 'T' :: 'A' :: '+' :: d :: ds => digitsValue 10 (d :: ds) 0
  | _ => none

/-- A register's name (10_state.md R42). -/
def parseReg (t : String) : Option Reg :=
  match t with
  | "CMD" => some .cmd
  | "STATUS" => some .status
  | "OPA" => some .opa
  | "OPB" => some .opb
  | "VAL0" => some .val0
  | "VAL1" => some .val1
  | "VAL2" => some .val2
  | "VAL3" => some .val3
  | "RESULT" => some .result
  | "RESULT2" => some .result2
  | "PK_TOTAL" => some .pkTotal
  | "PK_NFIELDS" => some .pkNfields
  | "ID" => some .id
  | "PARAM0" => some .param0
  | "PARAM1" => some .param1
  | _ => none

/-- Whether `wr` names a register: OPA, OPB, VAL0 to VAL3, CMD (30_encoding.md R109). -/
def Reg.scriptWritable : Reg → Bool
  | .cmd | .opa | .opb | .val0 | .val1 | .val2 | .val3 => true
  | _ => false

/-- The OP of a mnemonic (30_encoding.md R103). -/
def mnemonicOP (t : String) : Option (BitVec 6) :=
  match t with
  | "NOP" => some 0x00
  | "LOADB" => some 0x01
  | "LOAD8" => some 0x02
  | "LOAD16" => some 0x03
  | "LOAD32" => some 0x04
  | "LOAD64" => some 0x05
  | "LOAD128" => some 0x06
  | "COPY" => some 0x07
  | "FREE" => some 0x08
  | "GET" => some 0x10
  | "SET" => some 0x11
  | "SLICE" => some 0x12
  | "COUNT" => some 0x13
  | "NBYTES" => some 0x14
  | "EXPORT" => some 0x15
  | "EXPORTL" => some 0x16
  | "EQ" => some 0x17
  | "PADD" => some 0x20
  | "PADDB" => some 0x21
  | "PADD8" => some 0x22
  | "PADD16" => some 0x23
  | "PBUILD" => some 0x24
  | "PCLEAR" => some 0x25
  | _ => none

/-- Whether a format has the variant field M (30_encoding.md R102). -/
def usesM : Format → Bool
  | .sm | .ssm => true
  | _ => false

/-- How many slot operands a format takes (30_encoding.md R102). -/
def slotCount (f : Format) : Nat := f.usesSA.toNat + f.usesSB.toNat

/-- The command of a mnemonic with its `.m` mark and slot operands; an omitted slot is 0, and `.m` needs a
format with M (30_encoding.md R109). DESIGN CHOICE (log 15): a line with a slot operand that the format does not
use (`GET s1, s2`, `NOP s1`) is refused as text. R109 leaves this open: it restricts `.m` only, and such a line
could instead write its word of R101, which raises IllegalCommand. -/
def parseCommand (name : String) (m : Bool) (slots : List SlotNum) : Option Instr :=
  match (mnemonicOP name).bind opcodeMap with
  | some (fmt, build) =>
    if (m && !usesM fmt) || decide (slotCount fmt < slots.length) then none
    else some (build m (slots.getD 0 0) (slots.getD 1 0))
  | none => none

/-- A name with its `.m` mark taken off. -/
def splitVariant (t : String) : String × Bool :=
  match t.toList.reverse with
  | 'm' :: '.' :: cs => (String.ofList cs.reverse, true)
  | _ => (t, false)

/-- A construction pseudo-instruction `name[.m] sA, v` (30_encoding.md R110). -/
def parseLoad (name : String) (m : Bool) (sa v : String) : Option Pseudo := do
  let a ← parseSlot sa
  match name with
  | "load8" => return .load8 m a (← parseImm 32 v)
  | "load16" => return .load16 m a (← parseImm 32 v)
  | "load32" => return .load32 m a (← parseImm 32 v)
  | "load64" => return .load64 m a (← parseImm 64 v)
  | "load128" => return .load128 m a (← parseImm 128 v)
  | _ => none

/-- A pseudo-instruction's text (30_encoding.md R110). -/
def parsePseudo (name : String) (m : Bool) (args : List String) : Option Pseudo :=
  match name, m, args with
  | "loadb", m, sa :: bs => do return .loadb m (← parseSlot sa) (← bs.mapM (parseImm 8))
  | "build", m, [sa] => do return .build m (← parseSlot sa)
  | "get", false, [sa, i] => do return .get (← parseSlot sa) (← parseImm 32 i)
  | "set", false, [sa, i, v] => do return .set (← parseSlot sa) (← parseImm 32 i) (← parseImm 32 v)
  | "slice", false, [sa, i, n] => do return .slice (← parseSlot sa) (← parseImm 32 i) (← parseImm 32 n)
  | "padd", false, [v, k] => do return .padd (← parseImm 64 v) (← parseImm 32 k)
  | "paddb", false, [b] => do return .paddb (← parseImm 32 b)
  | "padd8", false, [v] => do return .padd8 (← parseImm 32 v)
  | "padd16", false, [v] => do return .padd16 (← parseImm 32 v)
  | "count", false, [sa] => do return .count (← parseSlot sa)
  | "eq", false, [sa, sb] => do return .eq (← parseSlot sa) (← parseSlot sb)
  | "check", false, [] => some .check
  | name, m, [sa, v] => parseLoad name m sa v
  | _, _, _ => none

/-- The primitive line of a token list (30_encoding.md R109). -/
def parsePrimitive (head : String) (args : List String) : Option ScriptLine :=
  match head, args with
  | "wr", [r, v] => do
    let reg ← parseReg r
    if reg.scriptWritable then return .wr reg (← parseImm 32 v) else none
  | "wrb", [d, v] => do return .wrb (← parseData d) (← parseImm 8 v)
  | "wrw", [d, v] => do
    let k ← parseData d
    if k % 4 = 0 then return .wrw k (← parseImm 32 v) else none
  | "rd", [r] => do return .rd (← parseReg r)
  | "rdb", [d] => do return .rdb (← parseData d)
  | head, args => do
    let named := splitVariant head
    return .command (← parseCommand named.1 named.2 (← args.mapM parseSlot))

/-- The primitive lines a line of text stands for: none for a blank or comment line, one for a primitive line,
the expansion for a pseudo-instruction; `none` where the text is no line of R109 or R110. -/
def parseLine (text : String) : Option (List ScriptLine) :=
  match scriptTokens text.toList [] with
  | [] => some []
  | head :: args =>
    match parsePrimitive head args with
    | some l => some [l]
    | none => (parsePseudo (splitVariant head).1 (splitVariant head).2 args).map Pseudo.expand

end Sys2Proof.Machine
end

