-- ==== Sys2Proof/Safety.lean ====
section
/-! DEFINITION. The terms claims are stated in: the invariant of the block, what a command keeps, and the
causes of its errors. -/

namespace Sys2Proof.Machine

/-! ### The invariant -/

/-- A well-formed slot. A valid one has 1 to `MAX_BYTES` logical bytes, a buffer of max(8, n) bytes and zero
padding (10_state.md R33 to R35); one that holds no store is as reset and FREE leave it (R31,
40_store_construction.md R138). -/
abbrev Slot.wf (maxBytes : Nat) (x : Slot) : Prop :=
  (x.valid = true → 1 ≤ x.n ∧ x.n ≤ maxBytes ∧ x.buf.length = x.bufLen ∧
    ∀ k, k < 8 → x.n ≤ k → x.byte k = 0x00) ∧
  (x.valid = false → x = Slot.empty)

/-- The sum of the widths of a field list. -/
def widthSum (fields : List Field) : Nat := (fields.map Field.width).sum

/-- A well-formed packer: at most `MAX_FIELDS` fields, each with the width of its mask, and `totalBits` their
sum (10_state.md R39, R40). -/
abbrev Packer.wf (maxFields : Nat) (pk : Packer) : Prop :=
  pk.fields.length ≤ maxFields ∧ (∀ f ∈ pk.fields, f.width = fieldWidth f.mask) ∧
    pk.totalBits = widthSum pk.fields

/-- The invariant of the block: parameters in range, `NUM_SLOTS` well-formed slots, a well-formed packer, and
DATA in canonical form inside its window. -/
abbrev State.Inv (s : State) : Prop :=
  s.params.wf ∧ s.slots.length = s.params.numSlots ∧ (∀ x ∈ s.slots, x.wf s.params.maxBytes) ∧
    s.pk.wf s.params.maxFields ∧ s.data.wf ∧ ∀ c ∈ s.data, c.1 < s.params.maxBytes

/-! ### What a command keeps -/

/-- The parameters, the operand registers OPA, OPB and VAL0 to VAL3, and the host's side of the port. -/
abbrev KeepsOperands (s t : State) : Prop :=
  t.params = s.params ∧ t.opa = s.opa ∧ t.opb = s.opb ∧ t.val0 = s.val0 ∧ t.val1 = s.val1 ∧
    t.val2 = s.val2 ∧ t.val3 = s.val3 ∧ t.port = s.port ∧ t.replies = s.replies

/-- RESULT and RESULT2. -/
abbrev KeepsResults (s t : State) : Prop := t.result = s.result ∧ t.result2 = s.result2

/-- Every byte of DATA, read one by one. -/
abbrev KeepsData (s t : State) : Prop := ∀ k, t.data.read k = s.data.read k

/-- Every slot but slot `sa`, and how many there are. -/
abbrev KeepsSlotsBut (sa : SlotNum) (s t : State) : Prop :=
  t.slots.length = s.slots.length ∧ ∀ k, k ≠ sa.toNat → t.slots[k]? = s.slots[k]?

/-- What a construction command may change is slot `sa` and STATUS.ERR: everything else is kept. -/
abbrev OnlySlot (sa : SlotNum) (s t : State) : Prop :=
  KeepsOperands s t ∧ KeepsResults s t ∧ KeepsData s t ∧ t.pk = s.pk ∧ KeepsSlotsBut sa s t

/-- What a query may change is RESULT and STATUS.ERR: everything else is kept. -/
abbrev OnlyResult (s t : State) : Prop :=
  KeepsOperands s t ∧ t.result2 = s.result2 ∧ KeepsData s t ∧ t.pk = s.pk ∧ t.slots = s.slots

/-- What an error may change is STATUS.ERR: everything else is kept, whole. -/
abbrev OnlyErr (s t : State) : Prop :=
  KeepsOperands s t ∧ KeepsResults s t ∧ t.data = s.data ∧ t.pk = s.pk ∧ t.slots = s.slots

/-! ### Which commands may write what (30_encoding.md R107) -/

end Sys2Proof.Machine

namespace Sys2Proof

/-- The slot a command may write: SA of the construction commands, FREE, SET and PBUILD. -/
def Instr.writesSlot : Instr → Option SlotNum
  | .loadb _ sa | .load8 _ sa | .load16 _ sa | .load32 _ sa | .load64 _ sa | .load128 _ sa
  | .copy _ sa _ | .free sa | .set sa | .pbuild _ sa => some sa
  | .nop | .get _ | .slice _ | .count _ | .nbytes _ | .exportAll _ | .exportLogical _
  | .eq _ _ | .padd | .paddb | .padd8 | .padd16 | .pclear => none

/-- Whether a command changes the packer. -/
def Instr.writesPacker : Instr → Bool
  | .padd | .paddb | .padd8 | .padd16 | .pbuild _ _ | .pclear => true
  | .nop | .loadb _ _ | .load8 _ _ | .load16 _ _ | .load32 _ _ | .load64 _ _ | .load128 _ _
  | .copy _ _ _ | .free _ | .get _ | .set _ | .slice _ | .count _ | .nbytes _
  | .exportAll _ | .exportLogical _ | .eq _ _ => false

/-- Whether a command writes RESULT (30_encoding.md R107). -/
def Instr.writesResult : Instr → Bool
  | .get _ | .slice _ | .count _ | .nbytes _ | .exportAll _ | .exportLogical _ | .eq _ _
  | .padd | .paddb | .padd8 | .padd16 | .pbuild _ _ => true
  | .nop | .loadb _ _ | .load8 _ _ | .load16 _ _ | .load32 _ _ | .load64 _ _ | .load128 _ _
  | .copy _ _ _ | .free _ | .set _ | .pclear => false

/-- Whether a command writes RESULT2 (30_encoding.md R107). -/
def Instr.writesResult2 : Instr → Bool
  | .padd | .paddb | .padd8 | .padd16 | .pbuild _ _ => true
  | .nop | .loadb _ _ | .load8 _ _ | .load16 _ _ | .load32 _ _ | .load64 _ _ | .load128 _ _
  | .copy _ _ _ | .free _ | .get _ | .set _ | .slice _ | .count _ | .nbytes _
  | .exportAll _ | .exportLogical _ | .eq _ _ | .pclear => false

/-- Whether a command writes DATA (30_encoding.md R107). -/
def Instr.writesData : Instr → Bool
  | .exportAll _ | .exportLogical _ => true
  | .nop | .loadb _ _ | .load8 _ _ | .load16 _ _ | .load32 _ _ | .load64 _ _ | .load128 _ _
  | .copy _ _ _ | .free _ | .get _ | .set _ | .slice _ | .count _ | .nbytes _ | .eq _ _
  | .padd | .paddb | .padd8 | .padd16 | .pbuild _ _ | .pclear => false

/-- The receiver slot SA of a command that needs a store there (60_exceptions.md R274). -/
def Instr.receiver : Instr → Option SlotNum
  | .get sa | .set sa | .slice sa | .count sa | .nbytes sa | .exportAll sa
  | .exportLogical sa | .eq sa _ => some sa
  | .nop | .loadb _ _ | .load8 _ _ | .load16 _ _ | .load32 _ _ | .load64 _ _ | .load128 _ _
  | .copy _ _ _ | .free _ | .padd | .paddb | .padd8 | .padd16 | .pbuild _ _ | .pclear => none

/-- Whether a command appends a field (42_packer.md R222 to R225). -/
def Instr.isAdd : Instr → Bool
  | .padd | .paddb | .padd8 | .padd16 => true
  | .nop | .loadb _ _ | .load8 _ _ | .load16 _ _ | .load32 _ _ | .load64 _ _ | .load128 _ _
  | .copy _ _ _ | .free _ | .get _ | .set _ | .slice _ | .count _ | .nbytes _
  | .exportAll _ | .exportLogical _ | .eq _ _ | .pbuild _ _ | .pclear => false

end Sys2Proof

namespace Sys2Proof.Machine

/-! ### Values -/

/-- A bit index that a store does not have: outside `[0, bitCount)` (10_state.md R36). -/
abbrev OutsideStore (x : Slot) (i : Int) : Prop := i < 0 ∨ (8 * x.n : Nat) ≤ i

/-- The number that bits `start` to `start + count - 1` of a store make, the first in bit 0
(41_store_access.md R178). -/
def bitsValue (x : Slot) (start count : Nat) : Nat :=
  ((List.range count).map fun j => if x.bit (start + j) then 2 ^ j else 0).sum

/-- A bus access the block does not support, at offset `off` of the window (20_memory.md R73, R74). -/
abbrev Unsupported (maxBytes off bits : Nat) : Prop :=
  if off < 0x100 then ¬(bits = 32 ∧ off % 4 = 0)
  else ¬((bits = 8 ∧ off - 0x100 < maxBytes) ∨
    (bits = 32 ∧ (off - 0x100) % 4 = 0 ∧ off - 0x100 + 4 ≤ maxBytes))

/-- A word that is no command of a block with `numSlots` slots (30_encoding.md R105): a reserved OP, a reserved
bit that is not 0, an M, SA or SB that is not 0 where the format does not use it, or a slot that does not
exist. -/
abbrev IllegalWord (numSlots : Nat) (w : Word) : Prop :=
  let op := (w.extractLsb' 0 6).toNat
  let sa := (w.extractLsb' 8 4).toNat
  let sb := (w.extractLsb' 12 4).toNat
  let noSlot := op ∈ [0x00, 0x20, 0x21, 0x22, 0x23, 0x25]
  let twoSlots := op ∈ [0x07, 0x17]
  let variant := op ∈ [0x01, 0x02, 0x03, 0x04, 0x05, 0x06, 0x07, 0x24]
  (0x09 ≤ op ∧ op ≤ 0x0F) ∨ (0x18 ≤ op ∧ op ≤ 0x1F) ∨ (0x26 ≤ op ∧ op ≤ 0x3F) ∨
    w.getLsbD 7 = true ∨ w.extractLsb' 16 16 ≠ 0 ∨
    (w.getLsbD 6 = true ∧ ¬variant) ∨ (sa ≠ 0 ∧ noSlot) ∨ (sb ≠ 0 ∧ ¬twoSlots) ∨
    (numSlots ≤ sa ∧ ¬noSlot) ∨ (numSlots ≤ sb ∧ twoSlots)

/-- The number of each error code (60_exceptions.md R270). -/
def errorNumbers : List (ErrCode × Nat) :=
  [(.ok, 0), (.invalidArgument, 1), (.indexOutOfRange, 2), (.illegalCommand, 3), (.noStore, 4),
    (.modeViolation, 5), (.capacity, 6), (.packerSpent, 7), (.windowOverrun, 8)]

/-! ### Reset -/

/-- What 70_reset_and_hazards.md R300 says a block holds after reset, as slots, packer and what a host reads. -/
def HoldsResetValues (t : State) : Prop :=
  t.slots.length = t.params.numSlots ∧
  (∀ x ∈ t.slots, x.valid = false ∧ x.mutable = false ∧ x.n = 0 ∧ x.buf = []) ∧
  t.pk.fields = [] ∧ t.pk.totalBits = 0 ∧ t.pk.spent = false ∧
  (∀ off ∈ [0x004, 0x008, 0x00C, 0x010, 0x014, 0x018, 0x01C, 0x020, 0x024, 0x028, 0x02C],
    t.busRead off 32 = .readWord 0x00000000) ∧
  t.busRead 0x030 32 = .readWord 0x42430007 ∧
  t.busRead 0x034 32 = .readWord (BitVec.ofNat 32 (65536 * t.params.maxFields + t.params.numSlots)) ∧
  t.busRead 0x038 32 = .readWord (BitVec.ofNat 32 t.params.maxBytes) ∧
  ∀ k, k < t.params.maxBytes → t.busRead (0x100 + k) 8 = .readByte 0x00

/-! ### Runs of commands -/

/-- The commands of a list, one after the other, each run where the one before ended. -/
def execAll : List Instr → State → Result
  | [], s => .next s
  | i :: is, s =>
    match exec i s with
    | .next t => execAll is t
    | .fault f => .fault f
    | .refused r => .refused r

end Sys2Proof.Machine
end

