-- ==== Sys2Proof/Certificates/Slice0/Obligations.lean ====
section
/-! DEFINITION. The statements for the provers, from the numbered rules of spec/. Each holds for every block
parameter set that the invariant admits, or for every state; none rests on the values at State.reset. The bus
appears in them as the model holds it, with pending inputs in `port` and answers in `replies` (logs 3 and 4):
they say which answer an access gets and what it does, not when. -/

open Sys2Proof Sys2Proof.Machine

/-! ### Encoding -/

/-- 30_encoding.md R101 to R104: decoding the word of a well-formed command gives the command back, for every
value of M, SA and SB and every number of slots. -/
def Obligations.DecodeOfEncode : Prop :=
  ∀ (p : Params) (i : Instr), i.wellFormed p → decode p (encode i) = .ok i

/-- 30_encoding.md R104: a word that decodes is, bit for bit, the word of the command it decodes to, and names
existing slots only. -/
def Obligations.EncodeOfDecode : Prop :=
  ∀ (p : Params) (w : Word) (i : Instr), decode p w = .ok i → encode i = w ∧ i.wellFormed p

/-- 30_encoding.md R105: a CMD write of a word with a reserved OP, a non-zero reserved bit, a non-zero unused
M, SA or SB, or a slot number not below `NUM_SLOTS` raises IllegalCommand and changes nothing else; and only
the word 0 is NOP. -/
def Obligations.IllegalWordRaises : Prop :=
  (∀ (s : State) (rest : List PortEvent) (w : Word),
    s.port = .access { addr := s.params.base + 0x000, bits := 32, dir := .write w } :: rest →
    IllegalWord s.params.numSlots w →
    step s = .next { s with
      port := rest, err := .illegalCommand, replies := .written :: s.replies }) ∧
  ∀ (p : Params) (w : Word), decode p w = .ok .nop → w = 0x00000000

/-- 30_encoding.md R103, 95_test_vectors.md: words written out from the spec decode to their commands in a
block of four slots. -/
def Obligations.DecodeSampleWords : Prop :=
  decode Params.suggested 0x00000000 = .ok .nop ∧
  decode Params.suggested 0x00000041 = .ok (.loadb true 0) ∧
  decode Params.suggested 0x00000306 = .ok (.load128 false 3) ∧
  decode Params.suggested 0x00001207 = .ok (.copy false 2 1) ∧
  decode Params.suggested 0x00000111 = .ok (.set 1) ∧
  decode Params.suggested 0x00003217 = .ok (.eq 2 3) ∧
  decode Params.suggested 0x00000164 = .ok (.pbuild true 1) ∧
  decode Params.suggested 0x00000025 = .ok .pclear

/-! ### The machine as a whole -/

/-- 10_state.md R43: when the oldest pending input is a 32-bit write of `w` to CMD and `w` decodes to `i`, the
step is the effect of `i` on the state without that input, with the write answered after it. -/
def Obligations.StepRunsDecodedCommand : Prop :=
  ∀ (s : State) (rest : List PortEvent) (w : Word) (i : Instr),
    s.port = .access { addr := s.params.base + 0x000, bits := 32, dir := .write w } :: rest →
    decode s.params w = .ok i →
    step s = answered (exec i { s with port := rest })

/-- 30_encoding.md R109: the script line of a well-formed command, as the oldest pending input, runs that
command and answers its write. -/
def Obligations.ScriptCommandRuns : Prop :=
  ∀ (s : State) (rest : List PortEvent) (i : Instr),
    s.port = .access ((ScriptLine.command i).access s.params) :: rest → i.wellFormed s.params →
    ∃ t, exec i { s with port := rest } = .next t ∧
      step s = .next { t with replies := .written :: t.replies }

/-- 70_reset_and_hazards.md R311, 20_memory.md R83 and R85: whatever the state, the block takes its oldest
pending input and goes on; it never stops, and the parameters never change. The clause on `port` is in part the
model's choice: with nothing pending the step waits (log 3), and the reset event keeps the inputs pending behind
it (log 7). No rule of the spec speaks of those. -/
def Obligations.StepNeverStops : Prop :=
  ∀ s : State, ∃ t, step s = .next t ∧ t.port = s.port.tail ∧ t.params = s.params

/-- The invariant of the block (10_state.md R33 to R35, R39, R40; DATA canonical inside its window) holds after
every step from a state that has it. -/
def Obligations.StepKeepsInvariant : Prop :=
  ∀ s t : State, s.Inv → step s = .next t → t.Inv

/-- The invariant holds right after reset, for every parameter set in range. -/
def Obligations.ResetMeetsInvariant : Prop :=
  (∀ p : Params, p.wf → (State.resetWith p).Inv) ∧ State.reset.Inv

/-- 70_reset_and_hazards.md R300: the reset event gives every piece of state the value the spec states, and so
does the state after reset of a block of any parameters. The clause `t.port = rest` is the model's choice
(log 7): the reset event keeps the inputs pending behind it, of which R300 says nothing. -/
def Obligations.ResetGivesResetValues : Prop :=
  (∀ (s : State) (rest : List PortEvent), s.params.wf → s.port = .reset :: rest →
    ∃ t, step s = .next t ∧ t.params = s.params ∧ t.port = rest ∧ HoldsResetValues t) ∧
  ∀ p : Params, p.wf → HoldsResetValues (State.resetWith p)

/-! ### The register window -/

/-- 20_memory.md R77: a read of any address and width changes nothing of the block, and a second one with
nothing between gets the same answer. -/
def Obligations.ReadsHaveNoEffect : Prop :=
  ∀ (s : State) (rest : List PortEvent) (addr bits : Nat),
    s.port = .access ⟨addr, bits, .read⟩ :: .access ⟨addr, bits, .read⟩ :: rest →
    ∃ r t, t = { s with port := .access ⟨addr, bits, .read⟩ :: rest, replies := r :: s.replies } ∧
      step s = .next t ∧ step t = .next { t with port := rest, replies := r :: t.replies }

/-- 20_memory.md R75: an unsupported access in the window changes no state of the block, STATUS.ERR included,
and gets the error response, of which the host sees what the platform's `BUS_ERROR_RESPONSE` gives. The form of
the second clause, an opaque function of the access's direction, address, width and place in the run, is the
model's choice (log 5): R75 leaves that parameter open. -/
def Obligations.UnsupportedAccessRefused : Prop :=
  ∀ (s : State) (rest : List PortEvent) (a : BusAccess) (occasion : Nat),
    s.port = .access a :: rest →
    s.params.base ≤ a.addr → a.addr < s.params.base + (0x100 + s.params.maxBytes) →
    Unsupported s.params.maxBytes (a.addr - s.params.base) a.bits →
    step s = .next { s with port := rest, replies := .error :: s.replies } ∧
      hostSees a occasion .error = Config.busErrorResponse a.dir.isWrite a.addr a.bits occasion

/-- The model's choice of log 6 (20_memory.md R71, 93_implementation_defined.md X8): an access whose address is
outside the window changes nothing of the block. -/
def Obligations.OutsideWindowIgnored : Prop :=
  ∀ (s : State) (rest : List PortEvent) (a : BusAccess),
    s.port = .access a :: rest →
    (a.addr < s.params.base ∨ s.params.base + (0x100 + s.params.maxBytes) ≤ a.addr) →
    step s = .next { s with port := rest, replies := .outside :: s.replies }

/-- 10_state.md R45, R46: a 32-bit write to OPA, OPB or VAL0 to VAL3 stores the word, which the next read of the
register gives back, and changes no other register, slot, packer field or DATA byte. -/
def Obligations.OperandRegistersReadBack : Prop :=
  ∀ (s : State) (rest : List PortEvent) (r : Reg) (w : Word),
    r ∈ [Reg.opa, .opb, .val0, .val1, .val2, .val3] →
    s.port = .access ⟨s.params.base + r.offset, 32, .write w⟩ ::
      .access ⟨s.params.base + r.offset, 32, .read⟩ :: rest →
    ∃ t u, step s = .next t ∧ step t = .next u ∧
      u.replies = .readWord w :: .written :: s.replies ∧
      (∀ q : Reg, t.reg q = if q = r then w else s.reg q) ∧
      t.slots = s.slots ∧ t.pk = s.pk ∧ t.err = s.err ∧ KeepsData s t

/-- 20_memory.md R76: a supported write to a read-only register is ignored; a supported read of CMD gives 0; a
supported access to a reserved offset reads 0 and ignores writes; none is an error. -/
def Obligations.ReadOnlyAndReservedOffsets : Prop :=
  (∀ (s : State) (rest : List PortEvent) (off : Nat) (w : Word),
    (off ∈ [0x004, 0x020, 0x024, 0x028, 0x02C, 0x030, 0x034, 0x038] ∨
      (0x03C ≤ off ∧ off < 0x100 ∧ off % 4 = 0)) →
    s.port = .access ⟨s.params.base + off, 32, .write w⟩ :: rest →
    step s = .next { s with port := rest, replies := .written :: s.replies }) ∧
  ∀ (s : State) (rest : List PortEvent) (off : Nat),
    (off = 0x000 ∨ (0x03C ≤ off ∧ off < 0x100 ∧ off % 4 = 0)) →
    s.port = .access ⟨s.params.base + off, 32, .read⟩ :: rest →
    step s = .next { s with port := rest, replies := .readWord 0x00000000 :: s.replies }

/-- 20_memory.md R74, R77: an 8-bit write to DATA byte `k` stores the byte, leaves every other DATA byte and
everything else alone, and an 8-bit read of byte `k` then gives it. -/
def Obligations.DataByteWrite : Prop :=
  ∀ (s : State) (rest : List PortEvent) (k : Nat) (w : Word), s.Inv → k < s.params.maxBytes →
    s.port = .access ⟨s.params.base + 0x100 + k, 8, .write w⟩ :: rest →
    ∃ t, step s = .next t ∧ t.busRead (0x100 + k) 8 = .readByte (w.extractLsb' 0 8) ∧
      (∀ j, j ≠ k → t.data.read j = s.data.read j) ∧
      t = { s with port := rest, replies := .written :: s.replies, data := t.data }

/-- 20_memory.md R72, R74: a 32-bit write to an aligned DATA index stores the word's bytes, the lowest first,
and nothing else; four 8-bit reads give them one by one and a 32-bit read gives the word. -/
def Obligations.DataWordLittleEndian : Prop :=
  ∀ (s : State) (rest : List PortEvent) (k : Nat) (w : Word), s.Inv →
    k % 4 = 0 → k + 4 ≤ s.params.maxBytes →
    s.port = .access ⟨s.params.base + 0x100 + k, 32, .write w⟩ :: rest →
    ∃ t, step s = .next t ∧
      (∀ j, j < 4 → t.busRead (0x100 + k + j) 8 = .readByte (w.extractLsb' (8 * j) 8)) ∧
      t.busRead (0x100 + k) 32 = .readWord w ∧
      (∀ j, (j < k ∨ k + 4 ≤ j) → t.data.read j = s.data.read j) ∧
      t = { s with port := rest, replies := .written :: s.replies, data := t.data }

/-- 10_state.md R44, 60_exceptions.md R270: a read of STATUS gives the error code in [3:0], PSPENT in [8], PFULL
in [9], and 0 in every other bit; the codes are the numbers of R270's table, 0 to 8. -/
def Obligations.StatusRegisterFields : Prop :=
  ∀ (s : State) (rest : List PortEvent),
    s.port = .access ⟨s.params.base + 0x004, 32, .read⟩ :: rest →
    ∃ w, step s = .next { s with port := rest, replies := .readWord w :: s.replies } ∧
      (s.err, (w.extractLsb' 0 4).toNat) ∈ errorNumbers ∧ w.extractLsb' 4 4 = 0 ∧
      w.getLsbD 8 = s.pk.spent ∧
      (w.getLsbD 9 = true ↔ s.pk.fields.length = s.params.maxFields) ∧ w.extractLsb' 10 22 = 0

/-- 10_state.md R47, R48: what ID, PARAM0, PARAM1, PK_TOTAL and PK_NFIELDS read as; the first three are
constants that no write changes. And a read of RESULT or RESULT2 gives the word the latest command that wrote it
left there (10_state.md R49, 20_memory.md R85). -/
def Obligations.ConstantAndLiveRegisters : Prop :=
  ∀ s : State, s.Inv →
    s.busRead 0x030 32 = .readWord 0x42430007 ∧
    (∃ w, s.busRead 0x034 32 = .readWord w ∧ (w.extractLsb' 0 8).toNat = s.params.numSlots ∧
      w.extractLsb' 8 8 = 0 ∧ (w.extractLsb' 16 16).toNat = s.params.maxFields) ∧
    (∃ w, s.busRead 0x038 32 = .readWord w ∧ w.toNat = s.params.maxBytes) ∧
    (∃ w, s.busRead 0x028 32 = .readWord w ∧ w.toNat = s.pk.totalBits) ∧
    (∃ w, s.busRead 0x02C 32 = .readWord w ∧ w.toNat = s.pk.fields.length) ∧
    s.busRead 0x020 32 = .readWord s.result ∧ s.busRead 0x024 32 = .readWord s.result2 ∧
    ∀ (rest : List PortEvent) (w : Word), ∀ off ∈ [0x030, 0x034, 0x038],
      s.port = .access ⟨s.params.base + off, 32, .write w⟩ :: rest →
      step s = .next { s with port := rest, replies := .written :: s.replies }

/-! ### Errors -/

/-- 60_exceptions.md R279: a command that ends with an error code changes nothing but STATUS.ERR. -/
def Obligations.ErrorChangesOnlyErr : Prop :=
  ∀ (i : Instr) (s : State), ∃ t, exec i s = .next t ∧ (t.err ≠ .ok → OnlyErr s t)

/-- 60_exceptions.md R281, R282: a command runs the same whatever STATUS.ERR holds: there is no error history. -/
def Obligations.NoErrorHistory : Prop :=
  ∀ (i : Instr) (s : State) (e : ErrCode), exec i { s with err := e } = exec i s

/-- 60_exceptions.md R281 and R270, 20_memory.md R83: a read of STATUS right after any CMD write gives, in [3:0],
the number of the code the command ended with, and the command's whole effect stands. -/
def Obligations.StatusReadSeesCommand : Prop :=
  ∀ (s : State) (rest : List PortEvent) (w : Word),
    s.port = .access ⟨s.params.base + 0x000, 32, .write w⟩ ::
      .access ⟨s.params.base + 0x004, 32, .read⟩ :: rest →
    ∃ t v, runCommand w { s with port := .access ⟨s.params.base + 0x004, 32, .read⟩ :: rest } = .next t ∧
      step s = .next { t with replies := .written :: s.replies } ∧
      step { t with replies := .written :: s.replies } =
        .next { t with port := rest, replies := .readWord v :: .written :: s.replies } ∧
      (t.err, (v.extractLsb' 0 4).toNat) ∈ errorNumbers

/-- 60_exceptions.md R271, in the check order of R280: which commands end with InvalidArgument, which records
nothing but the code. -/
def Obligations.InvalidArgumentCauses : Prop :=
  ∀ (i : Instr) (s : State), s.Inv → i.wellFormed s.params →
    ∃ t, exec i s = .next t ∧ (t.err = .invalidArgument → OnlyErr s t) ∧ (t.err = .invalidArgument ↔
      ((∃ m sa, i = .loadb m sa) ∧ s.opa.toNat = 0) ∨
      ((∃ m sa, i = .pbuild m sa) ∧ s.pk.spent = false ∧ s.pk.totalBits = 0))

/-- 60_exceptions.md R272, in the check order of R280: which commands end with IndexOutOfRange, which records
nothing but the code. A SLICE whose bits end past the store is not one of them. -/
def Obligations.IndexOutOfRangeCauses : Prop :=
  ∀ (i : Instr) (s : State), s.Inv → i.wellFormed s.params →
    ∃ t, exec i s = .next t ∧ (t.err = .indexOutOfRange → OnlyErr s t) ∧ (t.err = .indexOutOfRange ↔
      (∃ sa, i = .get sa ∧ (s.slot sa).valid = true ∧ OutsideStore (s.slot sa) s.opa.toInt) ∨
      (∃ sa, i = .set sa ∧ (s.slot sa).valid = true ∧ (s.slot sa).mutable = true ∧
        OutsideStore (s.slot sa) s.opa.toInt) ∨
      (∃ sa, i = .slice sa ∧ (s.slot sa).valid = true ∧
        (OutsideStore (s.slot sa) s.opa.toInt ∨ s.opb.toInt < 1 ∨ 32 < s.opb.toInt)))

/-- 60_exceptions.md R274: which commands end with NoStore; EQ of a read-only store with an empty SB is not one
of them and gives 0. -/
def Obligations.NoStoreCauses : Prop :=
  ∀ (i : Instr) (s : State), s.Inv → i.wellFormed s.params →
    ∃ t, exec i s = .next t ∧
      (t.err = .noStore ↔
        (∃ sa, i.receiver = some sa ∧ (s.slot sa).valid = false) ∨
        (∃ m sa sb, i = .copy m sa sb ∧ (s.slot sb).valid = false)) ∧
      ∀ sa sb, i = .eq sa sb → (s.slot sa).valid = true → (s.slot sa).mutable = false →
        (s.slot sb).valid = false → t.err = .ok ∧ t.result = 0

/-- 60_exceptions.md R275, in the check order of R280: which commands end with ModeViolation. -/
def Obligations.ModeViolationCauses : Prop :=
  ∀ (i : Instr) (s : State), s.Inv → i.wellFormed s.params →
    ∃ t, exec i s = .next t ∧ (t.err = .modeViolation ↔
      (∃ sa, i = .set sa ∧ (s.slot sa).valid = true ∧ (s.slot sa).mutable = false) ∨
      (∃ sa sb, i = .eq sa sb ∧ (s.slot sa).valid = true ∧
        ((s.slot sa).mutable = true ∨
          ((s.slot sb).valid = true ∧ (s.slot sb).mutable = true))))

/-- 60_exceptions.md R276, in the check order of R280: which commands end with Capacity. -/
def Obligations.CapacityCauses : Prop :=
  ∀ (i : Instr) (s : State), s.Inv → i.wellFormed s.params →
    ∃ t, exec i s = .next t ∧ (t.err = .capacity ↔
      ((∃ m sa, i = .loadb m sa) ∧ s.params.maxBytes < s.opa.toNat) ∨
      (i.isAdd = true ∧ s.pk.spent = false ∧ s.pk.fields.length = s.params.maxFields) ∨
      ((∃ m sa, i = .pbuild m sa) ∧ s.pk.spent = false ∧
        s.params.maxBytes < (s.pk.totalBits + 7) / 8))

/-- 60_exceptions.md R277: which commands end with PackerSpent. -/
def Obligations.PackerSpentCauses : Prop :=
  ∀ (i : Instr) (s : State), s.Inv → i.wellFormed s.params →
    ∃ t, exec i s = .next t ∧ (t.err = .packerSpent ↔
      (i.isAdd = true ∨ ∃ m sa, i = .pbuild m sa) ∧ s.pk.spent = true)

/-- 60_exceptions.md R278, in the check order of R280: which commands end with WindowOverrun. -/
def Obligations.WindowOverrunCauses : Prop :=
  ∀ (i : Instr) (s : State), s.Inv → i.wellFormed s.params →
    ∃ t, exec i s = .next t ∧ (t.err = .windowOverrun ↔
      ∃ sa, i = .slice sa ∧ (s.slot sa).valid = true ∧ ¬OutsideStore (s.slot sa) s.opa.toInt ∧
        2 ≤ s.opb.toInt ∧ s.opb.toInt ≤ 32 ∧
        64 < s.opa.toInt - 8 * min (s.opa.toInt / 8) (max 8 (s.slot sa).n - 8 : Nat) + s.opb.toInt)

/-! ### What a command may write -/

/-- 30_encoding.md R107, 10_state.md R45, R46, R49 and R51: no command writes OPA, OPB or VAL; RESULT, RESULT2
and DATA are written only by the commands whose row of R107 says so. -/
def Obligations.CommandsWriteOnlyTheirRegisters : Prop :=
  ∀ (i : Instr) (s : State), ∃ t, exec i s = .next t ∧ KeepsOperands s t ∧
    (i.writesResult = false → t.result = s.result) ∧
    (i.writesResult2 = false → t.result2 = s.result2) ∧
    (i.writesData = false → t.data = s.data)

/-- 10_state.md R37: a command changes no slot but the one slot it is given to write. -/
def Obligations.CommandsWriteOnlyTheirSlot : Prop :=
  ∀ (i : Instr) (s : State), ∃ t, exec i s = .next t ∧ t.slots.length = s.slots.length ∧
    ∀ k, (∀ sa, i.writesSlot = some sa → sa.toNat ≠ k) → t.slots[k]? = s.slots[k]?

/-- 10_state.md R38: a valid read-only slot stays as it is under every command, SET included, but for a
construction command or FREE that names it as its target. -/
def Obligations.ReadOnlySlotStays : Prop :=
  ∀ (i : Instr) (s : State) (k : Nat) (x : Slot),
    s.slots[k]? = some x → x.valid = true → x.mutable = false →
    (∀ sa, i.writesSlot = some sa → sa.toNat = k → i = .set sa) →
    ∃ t, exec i s = .next t ∧ t.slots[k]? = some x

/-- 10_state.md R41: only packer commands change the packer, the packer commands other than PBUILD change no
slot, and what a command makes of the packer does not depend on the slots. -/
def Obligations.PackerAndSlotsApart : Prop :=
  ∀ (i : Instr) (s : State) (others : List Slot), ∃ t u,
    exec i s = .next t ∧ exec i { s with slots := others } = .next u ∧ t.pk = u.pk ∧
    (i.writesPacker = false → t.pk = s.pk) ∧
    (i.isAdd = true ∨ i = .pclear → t.slots = s.slots)

/-! ### Control and construction commands -/

/-- 43_control.md R260: NOP makes STATUS.ERR 0 and changes nothing else. -/
def Obligations.NopOnlyClearsErr : Prop :=
  ∀ s : State, ∃ t, exec .nop s = .next t ∧ t.err = .ok ∧ OnlyErr s t

/-- 40_store_construction.md R131, 10_state.md R33: LOADB of 1 to `MAX_BYTES` bytes builds slot SA from DATA's
first bytes, with zero padding up to 8, and changes nothing else; 0 bytes raise InvalidArgument and more than
`MAX_BYTES` raise Capacity. -/
def Obligations.LoadbBuildsFromData : Prop :=
  ∀ (s : State) (m : Bool) (sa : SlotNum), s.Inv → sa.toNat < s.params.numSlots →
    if s.opa.toNat = 0 then exec (.loadb m sa) s = .next { s with err := .invalidArgument }
    else if s.params.maxBytes < s.opa.toNat then exec (.loadb m sa) s = .next { s with err := .capacity }
    else ∃ t, exec (.loadb m sa) s = .next t ∧ t.err = .ok ∧ OnlySlot sa s t ∧
      (t.slot sa).valid = true ∧ (t.slot sa).mutable = m ∧ (t.slot sa).n = s.opa.toNat ∧
      (t.slot sa).buf.length = max 8 s.opa.toNat ∧
      ∀ k, (t.slot sa).byte k = if k < s.opa.toNat then s.data.read k else 0x00

/-- 40_store_construction.md R132 to R136: LOAD8, LOAD16, LOAD32, LOAD64 and LOAD128 build slot SA from the low
1, 2, 4, 8 or 16 bytes of VAL, bit `j` of the store being bit `j` of the scalar (20_memory.md R79) and every
further buffer byte 0, and change nothing else. -/
def Obligations.LoadScalarBuilds : Prop :=
  ∀ (s : State) (m : Bool) (sa : SlotNum), s.Inv → sa.toNat < s.params.numSlots →
    ∀ c ∈ [(Instr.load8 m sa, 1), (.load16 m sa, 2), (.load32 m sa, 4), (.load64 m sa, 8),
        (.load128 m sa, 16)],
      ∃ t, exec c.1 s = .next t ∧ t.err = .ok ∧ OnlySlot sa s t ∧
        (t.slot sa).valid = true ∧ (t.slot sa).mutable = m ∧ (t.slot sa).n = c.2 ∧
        (t.slot sa).buf.length = max 8 c.2 ∧
        ∀ j, (t.slot sa).bit j = (decide (j < 8 * c.2) &&
          (s.val0.toNat + 2 ^ 32 * s.val1.toNat + 2 ^ 64 * s.val2.toNat +
            2 ^ 96 * s.val3.toNat).testBit j)

/-- 40_store_construction.md R137: COPY of an empty SB raises NoStore; else slot SA becomes a valid store of
variant M with SB's logical bytes, read before any write (so SA = SB keeps its bytes), and nothing else
changes. -/
def Obligations.CopyIsDeep : Prop :=
  ∀ (s : State) (m : Bool) (sa sb : SlotNum), s.Inv →
    sa.toNat < s.params.numSlots → sb.toNat < s.params.numSlots →
    if (s.slot sb).valid = false then exec (.copy m sa sb) s = .next { s with err := .noStore }
    else ∃ t, exec (.copy m sa sb) s = .next t ∧ t.err = .ok ∧ OnlySlot sa s t ∧
      (t.slot sa).valid = true ∧ (t.slot sa).mutable = m ∧ (t.slot sa).n = (s.slot sb).n ∧
      (t.slot sa).buf = (s.slot sb).buf

/-- 40_store_construction.md R138: FREE empties slot SA, whatever it held, and changes nothing else. -/
def Obligations.FreeEmptiesSlot : Prop :=
  ∀ (s : State) (sa : SlotNum), sa.toNat < s.slots.length →
    ∃ t, exec (.free sa) s = .next t ∧ t.err = .ok ∧ OnlySlot sa s t ∧
      t.slot sa = { valid := false, mutable := false, n := 0, buf := [] }

/-- 70_reset_and_hazards.md R301: FREE of every slot and PCLEAR bring slots, packer and STATUS.ERR to their
reset state and change nothing else. -/
def Obligations.FreeAllAndPclearRestore : Prop :=
  ∀ s : State, s.Inv →
    execAll ((List.range s.params.numSlots).map (fun k => Instr.free (BitVec.ofNat 4 k)) ++ [.pclear]) s =
      .next { s with
        slots := List.replicate s.params.numSlots Slot.empty, pk := Packer.empty, err := .ok }

/-! ### Access commands -/

/-- 41_store_access.md R171: GET of an empty slot raises NoStore, of an index outside the store
IndexOutOfRange; else RESULT is the bit, `(buf[i >> 3] >> (i & 7)) & 1`, and nothing else changes. -/
def Obligations.GetReadsBit : Prop :=
  ∀ (s : State) (sa : SlotNum), s.Inv → sa.toNat < s.params.numSlots →
    if (s.slot sa).valid = false then exec (.get sa) s = .next { s with err := .noStore }
    else if OutsideStore (s.slot sa) s.opa.toInt then
      exec (.get sa) s = .next { s with err := .indexOutOfRange }
    else ∃ t, exec (.get sa) s = .next t ∧ t.err = .ok ∧ OnlyResult s t ∧
      t.result = (((s.slot sa).buf.getD (s.opa.toNat / 8) 0x00 >>> (s.opa.toNat % 8)) &&& 1).setWidth 32

/-- 41_store_access.md R172: SET of an empty slot raises NoStore, of a read-only one ModeViolation, of an index
outside the store IndexOutOfRange; else bit `i` of the store becomes bit 0 of OPB, every other bit keeps its
value, and nothing else changes. -/
def Obligations.SetWritesOneBit : Prop :=
  ∀ (s : State) (sa : SlotNum), s.Inv → sa.toNat < s.params.numSlots →
    if (s.slot sa).valid = false then exec (.set sa) s = .next { s with err := .noStore }
    else if (s.slot sa).mutable = false then exec (.set sa) s = .next { s with err := .modeViolation }
    else if OutsideStore (s.slot sa) s.opa.toInt then
      exec (.set sa) s = .next { s with err := .indexOutOfRange }
    else ∃ t, exec (.set sa) s = .next t ∧ t.err = .ok ∧ OnlySlot sa s t ∧
      (t.slot sa).valid = true ∧ (t.slot sa).mutable = true ∧ (t.slot sa).n = (s.slot sa).n ∧
      (t.slot sa).buf.length = (s.slot sa).buf.length ∧
      ∀ j, (t.slot sa).bit j = if j = s.opa.toNat then s.opb.getLsbD 0 else (s.slot sa).bit j

/-- 41_store_access.md R177 and R178: the three regions of a SLICE that passed its argument checks, with
E = start + length. RESULT is the number the bits make, so its `s32` reading is `s32` of that number. -/
def Obligations.SliceThreeRegions : Prop :=
  ∀ (s : State) (sa : SlotNum) (start length : Nat), s.Inv → sa.toNat < s.params.numSlots →
    (s.slot sa).valid = true → s.opa.toInt = start → s.opb.toInt = length →
    start < 8 * (s.slot sa).n → 1 ≤ length → length ≤ 32 →
    if start + length ≤ 8 * (s.slot sa).n then
      exec (.slice sa) s = .next { s with
        result := BitVec.ofNat 32 (bitsValue (s.slot sa) start length), err := .ok }
    else if (s.slot sa).n < 8 ∧ start + length ≤ 64 then
      exec (.slice sa) s = .next { s with
        result := BitVec.ofNat 32 (bitsValue (s.slot sa) start (8 * (s.slot sa).n - start)), err := .ok }
    else exec (.slice sa) s = .next { s with err := .windowOverrun }

/-- 41_store_access.md R179: SLICE of one bit does what GET does. -/
def Obligations.SliceOfOneBitIsGet : Prop :=
  ∀ (s : State) (sa : SlotNum), s.opb = 1 → exec (.slice sa) s = exec (.get sa) s

/-- 41_store_access.md R180: where slot p holds bytes `a` and slot q holds `a ++ b`, for any byte list `b`, a
slice inside `a` is the same on p and on q; and where slot r holds bytes `b` and slot q holds `a ++ b`, for any
byte list `a`, a slice inside `b` is the same on r and, moved up by the bits of `a`, on q. -/
def Obligations.SliceBoundaryIndependence : Prop :=
  (∀ (s : State) (sp sq : SlotNum) (b : List Byte), s.Inv →
    sp.toNat < s.params.numSlots → sq.toNat < s.params.numSlots →
    (s.slot sp).valid = true → (s.slot sq).valid = true →
    (s.slot sq).bytes 0 (s.slot sq).n = (s.slot sp).bytes 0 (s.slot sp).n ++ b →
    ∀ start length : Nat, 1 ≤ length → length ≤ 32 → start + length ≤ 8 * (s.slot sp).n →
      ∃ t u,
        exec (.slice sp) { s with opa := BitVec.ofNat 32 start, opb := BitVec.ofNat 32 length } = .next t ∧
        exec (.slice sq) { s with opa := BitVec.ofNat 32 start, opb := BitVec.ofNat 32 length } = .next u ∧
        t.err = .ok ∧ u.err = .ok ∧ t.result = u.result) ∧
  ∀ (s : State) (sq sr : SlotNum) (a : List Byte), s.Inv →
    sq.toNat < s.params.numSlots → sr.toNat < s.params.numSlots →
    (s.slot sq).valid = true → (s.slot sr).valid = true →
    (s.slot sq).bytes 0 (s.slot sq).n = a ++ (s.slot sr).bytes 0 (s.slot sr).n →
    ∀ start length : Nat, 1 ≤ length → length ≤ 32 → start + length ≤ 8 * (s.slot sr).n →
      ∃ t u,
        exec (.slice sr) { s with opa := BitVec.ofNat 32 start, opb := BitVec.ofNat 32 length } = .next t ∧
        exec (.slice sq) { s with
          opa := BitVec.ofNat 32 (8 * a.length + start), opb := BitVec.ofNat 32 length } = .next u ∧
        t.err = .ok ∧ u.err = .ok ∧ t.result = u.result

/-- 41_store_access.md R190, R191: COUNT and NBYTES of a valid slot give its bit count and its logical byte
count, and change nothing else; of an empty slot they raise NoStore. -/
def Obligations.SizeQueries : Prop :=
  ∀ (s : State) (sa : SlotNum), s.Inv → sa.toNat < s.params.numSlots →
    ∀ c ∈ [(Instr.count sa, 8 * (s.slot sa).n), (.nbytes sa, (s.slot sa).n)],
      if (s.slot sa).valid = false then exec c.1 s = .next { s with err := .noStore }
      else ∃ t, exec c.1 s = .next t ∧ t.err = .ok ∧ OnlyResult s t ∧ t.result.toNat = c.2

/-- 41_store_access.md R195, R196: EXPORT writes the whole buffer, max(8, n) bytes, and EXPORTL the n logical
bytes to DATA from byte 0 on, RESULT is how many, every other DATA byte and everything else is unchanged; an
empty slot raises NoStore. -/
def Obligations.ExportsWriteData : Prop :=
  ∀ (s : State) (sa : SlotNum), s.Inv → sa.toNat < s.params.numSlots →
    ∀ c ∈ [(Instr.exportAll sa, max 8 (s.slot sa).n), (.exportLogical sa, (s.slot sa).n)],
      if (s.slot sa).valid = false then exec c.1 s = .next { s with err := .noStore }
      else ∃ t, exec c.1 s = .next t ∧ t.err = .ok ∧ t.result.toNat = c.2 ∧
        (∀ k, t.data.read k = if k < c.2 then (s.slot sa).buf.getD k 0x00 else s.data.read k) ∧
        KeepsOperands s t ∧ t.result2 = s.result2 ∧ t.pk = s.pk ∧ t.slots = s.slots

/-- 41_store_access.md R196, 70_reset_and_hazards.md R305: LOADB of the first DATA bytes and then, with DATA
holding any other contents `d`, EXPORTL of the slot: the bytes LOADB read stand in DATA again, and every byte past
them is as `d` has it. -/
def Obligations.LoadbExportlRoundTrip : Prop :=
  ∀ (s : State) (m : Bool) (sa : SlotNum) (d : Memory), s.Inv → sa.toNat < s.params.numSlots →
    1 ≤ s.opa.toNat → s.opa.toNat ≤ s.params.maxBytes → d.wf →
    ∃ t u, exec (.loadb m sa) s = .next t ∧ t.err = .ok ∧
      exec (.exportLogical sa) { t with data := d } = .next u ∧ u.err = .ok ∧ u.result = s.opa ∧
      ∀ k, u.data.read k = if k < s.opa.toNat then s.data.read k else d.read k

/-- 41_store_access.md R200: EQ of an empty receiver raises NoStore, of a mutable one ModeViolation; an empty
comparand gives 0 and a mutable one raises ModeViolation; else RESULT is 1 exactly when both stores have the
same logical bytes, and nothing else changes. -/
def Obligations.EqComparesLogicalBytes : Prop :=
  ∀ (s : State) (sa sb : SlotNum), s.Inv →
    sa.toNat < s.params.numSlots → sb.toNat < s.params.numSlots →
    if (s.slot sa).valid = false then exec (.eq sa sb) s = .next { s with err := .noStore }
    else if (s.slot sa).mutable = true then exec (.eq sa sb) s = .next { s with err := .modeViolation }
    else if (s.slot sb).valid = false then
      exec (.eq sa sb) s = .next { s with result := 0, err := .ok }
    else if (s.slot sb).mutable = true then exec (.eq sa sb) s = .next { s with err := .modeViolation }
    else ∃ t, exec (.eq sa sb) s = .next t ∧ t.err = .ok ∧ OnlyResult s t ∧
      (t.result = 0 ∨ t.result = 1) ∧
      (t.result = 1 ↔ (s.slot sa).n = (s.slot sb).n ∧
        ∀ k, k < (s.slot sa).n → (s.slot sa).buf.getD k 0x00 = (s.slot sb).buf.getD k 0x00)

/-! ### Packer commands -/

/-- 42_packer.md R220: the width of a mask is the number of contiguous 1-bits counted upward from bit 0. -/
def Obligations.FieldWidthCountsLowOnes : Prop :=
  ∀ (mask : BitVec 32) (w : Nat), fieldWidth mask = w ↔
    w ≤ 32 ∧ (∀ j, j < w → mask.getLsbD j = true) ∧ (w < 32 → mask.getLsbD w = false)

/-- 42_packer.md R221 to R225: with an unspent packer that has room, PADD, PADDB, PADD8 and PADD16 append their
field, with the width of its mask, at the running bit count; RESULT and RESULT2 are the ends of its range
modulo 2^32; nothing else changes. -/
def Obligations.AddsAppendField : Prop :=
  ∀ s : State, s.Inv → s.pk.spent = false → s.pk.fields.length < s.params.maxFields →
    ∀ c ∈ [(Instr.padd, s.val0.toNat + 2 ^ 32 * s.val1.toNat, s.opa, fieldWidth s.opa),
        (.paddb, s.opa.toNat % 2, 0x00000001, 1),
        (.padd8, s.val0.toNat % 2 ^ 8, 0x000000FF, 8),
        (.padd16, s.val0.toNat % 2 ^ 16, 0x0000FFFF, 16)],
      ∃ t, exec c.1 s = .next t ∧ t.err = .ok ∧
        t.pk.fields = s.pk.fields ++ [⟨BitVec.ofNat 64 c.2.1, c.2.2.1, c.2.2.2⟩] ∧
        t.pk.totalBits = s.pk.totalBits + c.2.2.2 ∧ t.pk.spent = false ∧
        t.result.toNat = s.pk.totalBits ∧
        t.result2.toNat = (s.pk.totalBits + c.2.2.2 + (2 ^ 32 - 1)) % 2 ^ 32 ∧
        KeepsOperands s t ∧ KeepsData s t ∧ t.slots = s.slots

/-- 42_packer.md R222, R277, R276: the four adds on a spent packer raise PackerSpent, on an unspent full one
Capacity. -/
def Obligations.AddsRefused : Prop :=
  ∀ (s : State) (i : Instr), i.isAdd = true →
    (s.pk.spent = true → exec i s = .next { s with err := .packerSpent }) ∧
    (s.pk.spent = false → s.pk.fields.length = s.params.maxFields →
      exec i s = .next { s with err := .capacity })

/-- 42_packer.md R226, R228: PBUILD of an unspent packer with bits that fit builds slot SA with `ceil(T / 8)`
bytes; bit `lo + k` of the store is bit `k` of the field whose range starts at `lo`, every bit from `T` on is 0;
RESULT is the byte count, RESULT2 is `T`, the packer becomes spent, and nothing else changes. -/
def Obligations.PbuildPacksFields : Prop :=
  ∀ (s : State) (m : Bool) (sa : SlotNum), s.Inv → sa.toNat < s.params.numSlots →
    s.pk.spent = false → 0 < s.pk.totalBits → (s.pk.totalBits + 7) / 8 ≤ s.params.maxBytes →
    ∃ t, exec (.pbuild m sa) s = .next t ∧ t.err = .ok ∧
      (t.slot sa).valid = true ∧ (t.slot sa).mutable = m ∧
      (t.slot sa).n = (s.pk.totalBits + 7) / 8 ∧
      (t.slot sa).buf.length = max 8 ((s.pk.totalBits + 7) / 8) ∧
      (∀ before f after, s.pk.fields = before ++ f :: after →
        ∀ k, k < f.width → (t.slot sa).bit (widthSum before + k) = f.value.getLsbD k) ∧
      (∀ j, s.pk.totalBits ≤ j → (t.slot sa).bit j = false) ∧
      t.result.toNat = (s.pk.totalBits + 7) / 8 ∧ t.result2.toNat = s.pk.totalBits ∧
      t.pk = { s.pk with spent := true } ∧
      KeepsOperands s t ∧ KeepsData s t ∧ KeepsSlotsBut sa s t

/-- 42_packer.md R227: the accumulator algorithm gives the same bytes as the packing function, for fields of
the widths the packer holds. -/
def Obligations.AccumulatorMatchesPack : Prop :=
  ∀ fields : List Field, (∀ f ∈ fields, f.width ≤ 32) → packAccumulator fields = pack fields

/-- 42_packer.md R230: after a PBUILD that completes, SLICE of the built slot at a field's range gives the
field's value cut to its width. -/
def Obligations.FieldRecovery : Prop :=
  ∀ (s : State) (m : Bool) (sa : SlotNum) (before after : List Field) (f : Field),
    s.Inv → sa.toNat < s.params.numSlots → s.pk.spent = false →
    (s.pk.totalBits + 7) / 8 ≤ s.params.maxBytes →
    s.pk.fields = before ++ f :: after → 1 ≤ f.width →
    ∃ t u, exec (.pbuild m sa) s = .next t ∧ t.err = .ok ∧
      exec (.slice sa) { t with
        opa := BitVec.ofNat 32 (widthSum before), opb := BitVec.ofNat 32 f.width } = .next u ∧
      u.err = .ok ∧ u.result.toNat = f.value.toNat % 2 ^ f.width

/-- 42_packer.md R229: PCLEAR empties the packer in any packer state and changes nothing else. -/
def Obligations.PclearEmptiesPacker : Prop :=
  ∀ s : State, ∃ t, exec .pclear s = .next t ∧ t.err = .ok ∧
    t.pk = { fields := [], totalBits := 0, spent := false } ∧
    KeepsOperands s t ∧ KeepsResults s t ∧ KeepsData s t ∧ t.slots = s.slots
end

