-- ==== Sys2Proof/Laws/Memory.lean ====
section
/-! SUPPORT. The laws of DATA: a read after a write, the bytes a write leaves alone, and that every operation
keeps the canonical form, which makes equal contents equal data. -/

namespace Sys2Proof.Machine

@[simp] theorem Memory.read_nil (k : Nat) : Memory.read [] k = Memory.unlisted := rfl

/-- Reading a memory at the index of its first cell, or past it. -/
theorem Memory.read_cons (a : Nat) (b : Byte) (m : Memory) (k : Nat) :
    Memory.read ((a, b) :: m) k = if a = k then b else m.read k := rfl

/-- An index below every cell is unlisted. -/
theorem Memory.read_eq_unlisted_of_lt {m : Memory} {k : Nat} (h : ∀ c ∈ m, k < c.1) :
    m.read k = Memory.unlisted := by
  induction m with
  | nil => rfl
  | cons c m ih =>
    have hc : k < c.1 := h c (by simp)
    rw [Memory.read_cons, if_neg (by omega), ih (fun d hd => h d (by simp [hd]))]

/-- An index that no cell holds is unlisted. -/
theorem Memory.read_eq_unlisted {m : Memory} {k : Nat} (h : ∀ c ∈ m, c.1 ≠ k) :
    m.read k = Memory.unlisted := by
  induction m with
  | nil => rfl
  | cons c m ih =>
    rw [Memory.read_cons, if_neg (h c (by simp)), ih (fun d hd => h d (by simp [hd]))]

/-- The canonical form of a cell and a rest. -/
theorem Memory.wf_cons {a : Nat} {b : Byte} {m : Memory} :
    Memory.wf ((a, b) :: m) ↔ (∀ c ∈ m, a < c.1) ∧ b ≠ Memory.unlisted ∧ Memory.wf m := by
  constructor
  · rintro ⟨hp, hv⟩
    rw [List.pairwise_cons] at hp
    exact ⟨hp.1, hv (a, b) (by simp), hp.2, fun c hc => hv c (by simp [hc])⟩
  · rintro ⟨ha, hb, hp, hv⟩
    refine ⟨List.pairwise_cons.2 ⟨ha, hp⟩, fun c hc => ?_⟩
    rcases List.mem_cons.1 hc with rfl | hc
    · exact hb
    · exact hv c hc

/-- The cells after a write: the cell written, unless it says what an unlisted one says, and old cells of
other indices. -/
theorem Memory.mem_write {m : Memory} {k : Nat} {v : Byte} {c : Host.Cell} (hm : m.wf)
    (h : c ∈ m.write k v) : (c = (k, v) ∧ v ≠ Memory.unlisted) ∨ (c ∈ m ∧ c.1 ≠ k) := by
  induction m with
  | nil =>
    by_cases hv : v = Memory.unlisted <;> simp [Memory.write, hv] at h
    exact .inl ⟨h, hv⟩
  | cons d m ih =>
    obtain ⟨a, b⟩ := d
    obtain ⟨ha, hb, hm'⟩ := Memory.wf_cons.1 hm
    have hrest : ∀ e ∈ m, k ≤ a → e.1 ≠ k := fun e he hk => by have := ha e he; omega
    unfold Memory.write at h
    split at h
    · rename_i hlt
      split at h
      · refine .inr ⟨h, ?_⟩
        rcases List.mem_cons.1 h with rfl | h
        · show a ≠ k; omega
        · exact hrest c h (by omega)
      · rename_i hv
        rcases List.mem_cons.1 h with rfl | h
        · exact .inl ⟨rfl, hv⟩
        · refine .inr ⟨h, ?_⟩
          rcases List.mem_cons.1 h with rfl | h
          · show a ≠ k; omega
          · exact hrest c h (by omega)
    · split at h
      · rename_i hk
        split at h
        · exact .inr ⟨by simp [h], hrest c h (by omega)⟩
        · rename_i hv
          rcases List.mem_cons.1 h with rfl | h
          · exact .inl ⟨rfl, hv⟩
          · exact .inr ⟨by simp [h], hrest c h (by omega)⟩
      · rename_i hk
        rcases List.mem_cons.1 h with rfl | h
        · exact .inr ⟨by simp, fun hh => hk hh.symm⟩
        · rcases ih hm' h with h | h
          · exact .inl h
          · exact .inr ⟨by simp [h.1], h.2⟩

/-- A write keeps the canonical form. -/
theorem Memory.write_wf {m : Memory} (hm : m.wf) (k : Nat) (v : Byte) : (m.write k v).wf := by
  induction m with
  | nil =>
    by_cases hv : v = Memory.unlisted <;> simp [Memory.write, hv, Memory.wf]
  | cons d m ih =>
    obtain ⟨a, b⟩ := d
    obtain ⟨ha, hb, hm'⟩ := Memory.wf_cons.1 hm
    unfold Memory.write
    split
    · rename_i hlt
      split
      · exact hm
      · rename_i hv
        refine Memory.wf_cons.2 ⟨fun c hc => ?_, hv, hm⟩
        rcases List.mem_cons.1 hc with rfl | hc
        · exact hlt
        · exact Nat.lt_trans hlt (ha c hc)
    · split
      · rename_i hk
        subst hk
        split
        · exact hm'
        · rename_i hv
          exact Memory.wf_cons.2 ⟨ha, hv, hm'⟩
      · refine Memory.wf_cons.2 ⟨fun c hc => ?_, hb, ih hm'⟩
        rcases Memory.mem_write hm' hc with ⟨rfl, -⟩ | ⟨hc, -⟩
        · show a < k; omega
        · exact ha c hc

/-- A read after a write to the same index gives the value written. -/
theorem Memory.read_write_same {m : Memory} (hm : m.wf) (k : Nat) (v : Byte) :
    (m.write k v).read k = v := by
  induction m with
  | nil => by_cases hv : v = Memory.unlisted <;> simp [Memory.write, hv, Memory.read_cons]
  | cons d m ih =>
    obtain ⟨a, b⟩ := d
    obtain ⟨ha, hb, hm'⟩ := Memory.wf_cons.1 hm
    unfold Memory.write
    split
    · rename_i hlt
      split
      · rename_i hv
        rw [Memory.read_cons, if_neg (by omega), hv]
        exact Memory.read_eq_unlisted_of_lt fun c hc => Nat.lt_trans hlt (ha c hc)
      · simp [Memory.read_cons]
    · split
      · rename_i hk
        subst hk
        split
        · rename_i hv
          rw [hv]
          exact Memory.read_eq_unlisted_of_lt ha
        · simp [Memory.read_cons]
      · rename_i hk
        rw [Memory.read_cons, if_neg (fun h => hk h.symm), ih hm']

/-- A write leaves every other index alone. -/
theorem Memory.read_write_ne {m : Memory} {k j : Nat} (v : Byte) (h : j ≠ k) :
    (m.write k v).read j = m.read j := by
  induction m with
  | nil =>
    by_cases hv : v = Memory.unlisted <;> simp [Memory.write, hv, Memory.read_cons]
    exact fun e => absurd e.symm h
  | cons d m ih =>
    obtain ⟨a, b⟩ := d
    unfold Memory.write
    split
    · split
      · rfl
      · rw [Memory.read_cons k, if_neg (fun e => h e.symm)]
    · split
      · rename_i hk
        subst hk
        split
        · rw [Memory.read_cons, if_neg (fun e => h e.symm)]
        · rw [Memory.read_cons, Memory.read_cons, if_neg (fun e => h e.symm), if_neg (fun e => h e.symm)]
      · rw [Memory.read_cons, Memory.read_cons, ih]

/-- What one write does, read byte by byte. -/
theorem Memory.read_write {m : Memory} (hm : m.wf) (k : Nat) (v : Byte) (j : Nat) :
    (m.write k v).read j = if j = k then v else m.read j := by
  split
  · rename_i h; subst h; exact Memory.read_write_same hm j v
  · rename_i h; exact Memory.read_write_ne v h

/-- A block write keeps the canonical form. -/
theorem Memory.writeBytes_wf {m : Memory} (hm : m.wf) (k : Nat) (bs : List Byte) :
    (m.writeBytes k bs).wf := by
  induction bs generalizing m k with
  | nil => exact hm
  | cons b bs ih => exact ih (Memory.write_wf hm k b) (k + 1)

/-- What a block write does, read byte by byte: the bytes written, and every other byte as before. -/
theorem Memory.read_writeBytes {m : Memory} (hm : m.wf) (k : Nat) (bs : List Byte) (j : Nat) :
    (m.writeBytes k bs).read j =
      if k ≤ j ∧ j < k + bs.length then bs.getD (j - k) 0x00 else m.read j := by
  induction bs generalizing m k with
  | nil => rw [if_neg (by simp)]; rfl
  | cons b bs ih =>
    show ((m.write k b).writeBytes (k + 1) bs).read j = _
    rw [ih (Memory.write_wf hm k b), Memory.read_write hm]
    by_cases h1 : j = k
    · subst h1
      rw [if_neg (by omega), if_pos rfl, if_pos (by simp)]
      simp
    · by_cases h2 : k + 1 ≤ j ∧ j < k + 1 + bs.length
      · rw [if_pos h2, if_pos (by simp; omega)]
        rw [show j - k = (j - (k + 1)) + 1 by omega]
        simp
      · rw [if_neg h2, if_neg h1, if_neg (by simp; omega)]

/-- Where the cells of a written memory lie. -/
theorem Memory.mem_writeBytes {m : Memory} (hm : m.wf) {k : Nat} {bs : List Byte} {c : Host.Cell}
    (h : c ∈ m.writeBytes k bs) : (k ≤ c.1 ∧ c.1 < k + bs.length) ∨ c ∈ m := by
  induction bs generalizing m k with
  | nil => exact .inr h
  | cons b bs ih =>
    rcases ih (Memory.write_wf hm k b) h with h | h
    · left; simp; omega
    · rcases Memory.mem_write hm h with ⟨rfl, -⟩ | h
      · left; simp
      · exact .inr h.1

@[simp] theorem Memory.length_readBytes (m : Memory) (k n : Nat) : (m.readBytes k n).length = n := by
  simp [Memory.readBytes]

/-- Byte `j` of a block read. -/
theorem Memory.getD_readBytes (m : Memory) (k n j : Nat) (h : j < n) :
    (m.readBytes k n).getD j 0x00 = m.read (k + j) := by
  simp [Memory.readBytes, List.getD_eq_getElem?_getD, h]

/-- A listed cell of a canonical memory is what is read at its index. -/
theorem Memory.read_of_mem {m : Memory} (hm : m.wf) {c : Host.Cell} (h : c ∈ m) : m.read c.1 = c.2 := by
  induction m with
  | nil => simp at h
  | cons d m ih =>
    obtain ⟨a, b⟩ := d
    obtain ⟨ha, -, hm'⟩ := Memory.wf_cons.1 hm
    rcases List.mem_cons.1 h with rfl | h
    · simp [Memory.read_cons]
    · rw [Memory.read_cons, if_neg (by have := ha c h; omega), ih hm' h]

/-- Two canonical memories that read alike everywhere are the same data. -/
theorem Memory.ext_of_read {m m' : Memory} (hm : m.wf) (hm' : m'.wf) (h : ∀ k, m.read k = m'.read k) :
    m = m' := by
  induction m generalizing m' with
  | nil =>
    cases m' with
    | nil => rfl
    | cons c m' =>
      have := Memory.read_of_mem hm' (c := c) (by simp)
      rw [← h] at this
      exact absurd this.symm (hm'.2 c (by simp))
  | cons d m ih =>
    obtain ⟨a, b⟩ := d
    obtain ⟨ha, hb, hw⟩ := Memory.wf_cons.1 hm
    cases m' with
    | nil =>
      have := h a
      rw [Memory.read_cons, if_pos rfl] at this
      exact absurd this hb
    | cons d' m' =>
      obtain ⟨a', b'⟩ := d'
      obtain ⟨ha', hb', hw'⟩ := Memory.wf_cons.1 hm'
      have e : a = a' := by
        rcases Nat.lt_trichotomy a a' with hlt | e | hlt
        · exfalso
          have := h a
          rw [Memory.read_cons, if_pos rfl, Memory.read_eq_unlisted_of_lt (m := (a', b') :: m')] at this
          · exact hb this
          · intro c hc
            rcases List.mem_cons.1 hc with rfl | hc
            · exact hlt
            · exact Nat.lt_trans hlt (ha' c hc)
        · exact e
        · exfalso
          have := h a'
          rw [Memory.read_cons a', if_pos rfl, Memory.read_eq_unlisted_of_lt (m := (a, b) :: m)] at this
          · exact hb' this.symm
          · intro c hc
            rcases List.mem_cons.1 hc with rfl | hc
            · exact hlt
            · exact Nat.lt_trans hlt (ha c hc)
      subst e
      have hbb : b = b' := by
        have := h a
        rwa [Memory.read_cons, Memory.read_cons, if_pos rfl, if_pos rfl] at this
      subst hbb
      congr 1
      refine ih hw hw' fun k => ?_
      by_cases hk : a = k
      · subst hk
        rw [Memory.read_eq_unlisted_of_lt ha, Memory.read_eq_unlisted_of_lt ha']
      · have := h k
        rwa [Memory.read_cons, Memory.read_cons, if_neg hk, if_neg hk] at this

end Sys2Proof.Machine
end

