-- ==== Sys2Proof/Laws/State.lean ====
section
/-! SUPPORT. One lemma per field per update of State, each true by rfl, so that no later proof unfolds a record
update. -/

namespace Sys2Proof.Machine

variable (s : State)

/-! ### `setSlot` -/

@[simp] theorem State.setSlot_slots (sa : SlotNum) (x : Slot) :
    (s.setSlot sa x).slots = s.slots.set sa.toNat x := rfl
@[simp] theorem State.setSlot_params (sa : SlotNum) (x : Slot) : (s.setSlot sa x).params = s.params := rfl
@[simp] theorem State.setSlot_pk (sa : SlotNum) (x : Slot) : (s.setSlot sa x).pk = s.pk := rfl
@[simp] theorem State.setSlot_err (sa : SlotNum) (x : Slot) : (s.setSlot sa x).err = s.err := rfl
@[simp] theorem State.setSlot_opa (sa : SlotNum) (x : Slot) : (s.setSlot sa x).opa = s.opa := rfl
@[simp] theorem State.setSlot_opb (sa : SlotNum) (x : Slot) : (s.setSlot sa x).opb = s.opb := rfl
@[simp] theorem State.setSlot_val0 (sa : SlotNum) (x : Slot) : (s.setSlot sa x).val0 = s.val0 := rfl
@[simp] theorem State.setSlot_val1 (sa : SlotNum) (x : Slot) : (s.setSlot sa x).val1 = s.val1 := rfl
@[simp] theorem State.setSlot_val2 (sa : SlotNum) (x : Slot) : (s.setSlot sa x).val2 = s.val2 := rfl
@[simp] theorem State.setSlot_val3 (sa : SlotNum) (x : Slot) : (s.setSlot sa x).val3 = s.val3 := rfl
@[simp] theorem State.setSlot_result (sa : SlotNum) (x : Slot) : (s.setSlot sa x).result = s.result := rfl
@[simp] theorem State.setSlot_result2 (sa : SlotNum) (x : Slot) : (s.setSlot sa x).result2 = s.result2 := rfl
@[simp] theorem State.setSlot_data (sa : SlotNum) (x : Slot) : (s.setSlot sa x).data = s.data := rfl
@[simp] theorem State.setSlot_port (sa : SlotNum) (x : Slot) : (s.setSlot sa x).port = s.port := rfl
@[simp] theorem State.setSlot_replies (sa : SlotNum) (x : Slot) : (s.setSlot sa x).replies = s.replies := rfl

/-! ### `reply` -/

@[simp] theorem State.reply_replies (r : Reply) : (s.reply r).replies = r :: s.replies := rfl
@[simp] theorem State.reply_params (r : Reply) : (s.reply r).params = s.params := rfl
@[simp] theorem State.reply_slots (r : Reply) : (s.reply r).slots = s.slots := rfl
@[simp] theorem State.reply_pk (r : Reply) : (s.reply r).pk = s.pk := rfl
@[simp] theorem State.reply_err (r : Reply) : (s.reply r).err = s.err := rfl
@[simp] theorem State.reply_opa (r : Reply) : (s.reply r).opa = s.opa := rfl
@[simp] theorem State.reply_opb (r : Reply) : (s.reply r).opb = s.opb := rfl
@[simp] theorem State.reply_val0 (r : Reply) : (s.reply r).val0 = s.val0 := rfl
@[simp] theorem State.reply_val1 (r : Reply) : (s.reply r).val1 = s.val1 := rfl
@[simp] theorem State.reply_val2 (r : Reply) : (s.reply r).val2 = s.val2 := rfl
@[simp] theorem State.reply_val3 (r : Reply) : (s.reply r).val3 = s.val3 := rfl
@[simp] theorem State.reply_result (r : Reply) : (s.reply r).result = s.result := rfl
@[simp] theorem State.reply_result2 (r : Reply) : (s.reply r).result2 = s.result2 := rfl
@[simp] theorem State.reply_data (r : Reply) : (s.reply r).data = s.data := rfl
@[simp] theorem State.reply_port (r : Reply) : (s.reply r).port = s.port := rfl

/-! ### `withFetchWord` -/

@[simp] theorem State.withFetchWord_port (nbits w : Nat) :
    (s.withFetchWord nbits w).port = commandEvent s.params nbits w :: s.port := rfl
@[simp] theorem State.withFetchWord_params (nbits w : Nat) : (s.withFetchWord nbits w).params = s.params := rfl
@[simp] theorem State.withFetchWord_slots (nbits w : Nat) : (s.withFetchWord nbits w).slots = s.slots := rfl
@[simp] theorem State.withFetchWord_pk (nbits w : Nat) : (s.withFetchWord nbits w).pk = s.pk := rfl
@[simp] theorem State.withFetchWord_err (nbits w : Nat) : (s.withFetchWord nbits w).err = s.err := rfl
@[simp] theorem State.withFetchWord_opa (nbits w : Nat) : (s.withFetchWord nbits w).opa = s.opa := rfl
@[simp] theorem State.withFetchWord_opb (nbits w : Nat) : (s.withFetchWord nbits w).opb = s.opb := rfl
@[simp] theorem State.withFetchWord_val0 (nbits w : Nat) : (s.withFetchWord nbits w).val0 = s.val0 := rfl
@[simp] theorem State.withFetchWord_val1 (nbits w : Nat) : (s.withFetchWord nbits w).val1 = s.val1 := rfl
@[simp] theorem State.withFetchWord_val2 (nbits w : Nat) : (s.withFetchWord nbits w).val2 = s.val2 := rfl
@[simp] theorem State.withFetchWord_val3 (nbits w : Nat) : (s.withFetchWord nbits w).val3 = s.val3 := rfl
@[simp] theorem State.withFetchWord_result (nbits w : Nat) : (s.withFetchWord nbits w).result = s.result := rfl
@[simp] theorem State.withFetchWord_result2 (nbits w : Nat) : (s.withFetchWord nbits w).result2 = s.result2 := rfl
@[simp] theorem State.withFetchWord_data (nbits w : Nat) : (s.withFetchWord nbits w).data = s.data := rfl
@[simp] theorem State.withFetchWord_replies (nbits w : Nat) : (s.withFetchWord nbits w).replies = s.replies := rfl

/-! ### `resetWith` and `afterReset` -/

@[simp] theorem State.resetWith_params (p : Params) : (State.resetWith p).params = p := rfl
@[simp] theorem State.resetWith_slots (p : Params) : (State.resetWith p).slots = List.replicate p.numSlots Slot.empty := rfl
@[simp] theorem State.resetWith_pk (p : Params) : (State.resetWith p).pk = Packer.empty := rfl
@[simp] theorem State.resetWith_err (p : Params) : (State.resetWith p).err = .ok := rfl
@[simp] theorem State.resetWith_opa (p : Params) : (State.resetWith p).opa = 0 := rfl
@[simp] theorem State.resetWith_opb (p : Params) : (State.resetWith p).opb = 0 := rfl
@[simp] theorem State.resetWith_val0 (p : Params) : (State.resetWith p).val0 = 0 := rfl
@[simp] theorem State.resetWith_val1 (p : Params) : (State.resetWith p).val1 = 0 := rfl
@[simp] theorem State.resetWith_val2 (p : Params) : (State.resetWith p).val2 = 0 := rfl
@[simp] theorem State.resetWith_val3 (p : Params) : (State.resetWith p).val3 = 0 := rfl
@[simp] theorem State.resetWith_result (p : Params) : (State.resetWith p).result = 0 := rfl
@[simp] theorem State.resetWith_result2 (p : Params) : (State.resetWith p).result2 = 0 := rfl
@[simp] theorem State.resetWith_data (p : Params) : (State.resetWith p).data = [] := rfl
@[simp] theorem State.resetWith_port (p : Params) : (State.resetWith p).port = [] := rfl
@[simp] theorem State.resetWith_replies (p : Params) : (State.resetWith p).replies = [] := rfl
@[simp] theorem State.afterReset_params : s.afterReset.params = s.params := rfl
@[simp] theorem State.afterReset_slots : s.afterReset.slots = List.replicate s.params.numSlots Slot.empty := rfl
@[simp] theorem State.afterReset_pk : s.afterReset.pk = Packer.empty := rfl
@[simp] theorem State.afterReset_err : s.afterReset.err = .ok := rfl
@[simp] theorem State.afterReset_opa : s.afterReset.opa = 0 := rfl
@[simp] theorem State.afterReset_opb : s.afterReset.opb = 0 := rfl
@[simp] theorem State.afterReset_val0 : s.afterReset.val0 = 0 := rfl
@[simp] theorem State.afterReset_val1 : s.afterReset.val1 = 0 := rfl
@[simp] theorem State.afterReset_val2 : s.afterReset.val2 = 0 := rfl
@[simp] theorem State.afterReset_val3 : s.afterReset.val3 = 0 := rfl
@[simp] theorem State.afterReset_result : s.afterReset.result = 0 := rfl
@[simp] theorem State.afterReset_result2 : s.afterReset.result2 = 0 := rfl
@[simp] theorem State.afterReset_data : s.afterReset.data = [] := rfl
@[simp] theorem State.afterReset_port : s.afterReset.port = s.port := rfl
@[simp] theorem State.afterReset_replies : s.afterReset.replies = s.replies := rfl

/-! ### `setReg`: what it never writes -/

@[simp] theorem State.setReg_params (r : Reg) (w : Word) : (s.setReg r w).params = s.params := by cases r <;> rfl
@[simp] theorem State.setReg_slots (r : Reg) (w : Word) : (s.setReg r w).slots = s.slots := by cases r <;> rfl
@[simp] theorem State.setReg_pk (r : Reg) (w : Word) : (s.setReg r w).pk = s.pk := by cases r <;> rfl
@[simp] theorem State.setReg_err (r : Reg) (w : Word) : (s.setReg r w).err = s.err := by cases r <;> rfl
@[simp] theorem State.setReg_result (r : Reg) (w : Word) : (s.setReg r w).result = s.result := by cases r <;> rfl
@[simp] theorem State.setReg_result2 (r : Reg) (w : Word) : (s.setReg r w).result2 = s.result2 := by cases r <;> rfl
@[simp] theorem State.setReg_data (r : Reg) (w : Word) : (s.setReg r w).data = s.data := by cases r <;> rfl
@[simp] theorem State.setReg_port (r : Reg) (w : Word) : (s.setReg r w).port = s.port := by cases r <;> rfl
@[simp] theorem State.setReg_replies (r : Reg) (w : Word) : (s.setReg r w).replies = s.replies := by cases r <;> rfl

/-! ### `builtSlot` and the empty values -/

@[simp] theorem builtSlot_valid (bs : List Byte) (m : Bool) : (builtSlot bs m).valid = true := rfl
@[simp] theorem builtSlot_mutable (bs : List Byte) (m : Bool) : (builtSlot bs m).mutable = m := rfl
@[simp] theorem builtSlot_n (bs : List Byte) (m : Bool) : (builtSlot bs m).n = bs.length := rfl
@[simp] theorem Slot.empty_valid : Slot.empty.valid = false := rfl
@[simp] theorem Slot.empty_mutable : Slot.empty.mutable = false := rfl
@[simp] theorem Slot.empty_n : Slot.empty.n = 0 := rfl
@[simp] theorem Slot.empty_buf : Slot.empty.buf = [] := rfl
@[simp] theorem Packer.empty_fields : Packer.empty.fields = [] := rfl
@[simp] theorem Packer.empty_totalBits : Packer.empty.totalBits = 0 := rfl
@[simp] theorem Packer.empty_spent : Packer.empty.spent = false := rfl

end Sys2Proof.Machine
end

