-- ==== Sys2Proof/Laws/Operands.lean ====
section
/-! SUPPORT. What the operand readings do, bit by bit: little-endian integers and their bytes, bits of a buffer,
the slice window and its extraction, the field width and the packed integer. -/

namespace Sys2Proof.Machine

/-! ### Little-endian integers -/

theorem leNat_lt (bs : List Byte) : leNat bs < 256 ^ bs.length := by
  induction bs with
  | nil => simp [leNat]
  | cons b bs ih =>
    have hb := b.isLt
    simp only [leNat, List.length_cons, Nat.pow_succ]
    omega

/-- Bit `i` of a little-endian integer is bit `i mod 8` of byte `i / 8` (20_memory.md R78). -/
theorem testBit_leNat (bs : List Byte) (i : Nat) :
    (leNat bs).testBit i = (bs.getD (i / 8) 0x00).getLsbD (i % 8) := by
  induction bs generalizing i with
  | nil => simp [leNat]
  | cons b bs ih =>
    have hb : b.toNat < 2 ^ 8 := b.isLt
    have h := Nat.testBit_two_pow_mul_add (leNat bs) hb i
    rw [show leNat (b :: bs) = 2 ^ 8 * leNat bs + b.toNat by simp [leNat]; omega, h]
    by_cases hi : i < 8
    · rw [if_pos hi, show i / 8 = 0 by omega, show i % 8 = i by omega]
      simp [BitVec.getLsbD]
    · rw [if_neg hi, ih, show i / 8 = (i - 8) / 8 + 1 by omega, show i % 8 = (i - 8) % 8 by omega]
      simp

@[simp] theorem length_bytesLE (n v : Nat) : (bytesLE n v).length = n := by
  induction n generalizing v with
  | zero => rfl
  | succ n ih => simp [bytesLE, ih]

/-- Byte `k` of the bytes of an integer. -/
theorem getD_bytesLE (n v k : Nat) :
    (bytesLE n v).getD k 0x00 = if k < n then BitVec.ofNat 8 (v / 256 ^ k) else 0x00 := by
  induction n generalizing v k with
  | zero => simp [bytesLE]
  | succ n ih =>
    cases k with
    | zero => simp [bytesLE]
    | succ k =>
      have h := ih (v / 256) k
      simp only [bytesLE, List.getD_cons_succ, h, Nat.succ_lt_succ_iff, Nat.div_div_eq_div_mul,
        Nat.pow_succ, Nat.mul_comm 256]

/-- Bit `i` of the bytes of an integer is bit `i` of the integer, up to the bytes taken (20_memory.md R79). -/
theorem bit_bytesLE (n v i : Nat) :
    ((bytesLE n v).getD (i / 8) 0x00).getLsbD (i % 8) = (decide (i < 8 * n) && v.testBit i) := by
  rw [getD_bytesLE]
  by_cases h : i / 8 < n
  · rw [if_pos h, BitVec.getLsbD_ofNat, show (256 : Nat) = 2 ^ 8 by rfl, ← Nat.pow_mul,
      Nat.testBit_div_two_pow, show i % 8 + 8 * (i / 8) = i by omega]
    simp [show i % 8 < 8 by omega, show i < 8 * n by omega]
  · rw [if_neg h]
    simp [show ¬ i < 8 * n by omega]

/-- The little-endian integer of an integer's bytes is its low part. -/
theorem leNat_bytesLE (n v : Nat) : leNat (bytesLE n v) = v % 2 ^ (8 * n) := by
  apply Nat.eq_of_testBit_eq
  intro i
  rw [testBit_leNat, bit_bytesLE, Nat.testBit_mod_two_pow]

/-! ### Buffers -/

@[simp] theorem Slot.length_bytes (x : Slot) (k n : Nat) : (x.bytes k n).length = n := by
  simp [Slot.bytes]

theorem Slot.getD_bytes (x : Slot) (k n j : Nat) :
    (x.bytes k n).getD j 0x00 = if j < n then x.byte (k + j) else 0x00 := by
  by_cases h : j < n <;> simp [Slot.bytes, List.getD_eq_getElem?_getD, h]

/-- Byte `k` of a slot built from bytes: the byte, or zero past them (10_state.md R33). -/
theorem builtSlot_byte (bs : List Byte) (m : Bool) (k : Nat) :
    (builtSlot bs m).byte k = bs.getD k 0x00 := by
  simp only [Slot.byte, builtSlot, List.getD_eq_getElem?_getD]
  by_cases h : k < bs.length
  · rw [List.getElem?_append_left h]
  · rw [List.getElem?_append_right (by omega), List.getElem?_replicate]
    rw [List.getElem?_eq_none (l := bs) (by omega)]
    split <;> rfl

/-- Bit `i` of a slot built from bytes. -/
theorem builtSlot_bit (bs : List Byte) (m : Bool) (i : Nat) :
    (builtSlot bs m).bit i = (bs.getD (i / 8) 0x00).getLsbD (i % 8) := by
  rw [Slot.bit, builtSlot_byte]

@[simp] theorem builtSlot_bufLength (bs : List Byte) (m : Bool) :
    (builtSlot bs m).buf.length = max 8 bs.length := by
  simp [builtSlot]

/-- A slot built from 1 to `MAX_BYTES` bytes is well formed (40_store_construction.md R130). -/
theorem builtSlot_wf {bs : List Byte} {maxBytes : Nat} (m : Bool) (h0 : 0 < bs.length)
    (h1 : bs.length ≤ maxBytes) : (builtSlot bs m).wf maxBytes := by
  refine ⟨fun _ => ⟨h0, h1, by simp [Slot.bufLen], fun k _ hk => ?_⟩, fun h => by simp at h⟩
  have hk : bs.length ≤ k := hk
  rw [builtSlot_byte]
  simp [List.getD_eq_getElem?_getD, List.getElem?_eq_none hk]

/-- A bit at or above the logical bits of a well-formed slot is 0 (10_state.md R34). -/
theorem Slot.bit_padding {x : Slot} {maxBytes i : Nat} (hx : x.wf maxBytes) (hv : x.valid = true)
    (hi : x.bitCount ≤ i) : x.bit i = false := by
  obtain ⟨-, -, hl, hp⟩ := hx.1 hv
  have hi : 8 * x.n ≤ i := hi
  have : x.byte (i / 8) = 0x00 := by
    by_cases h8 : i / 8 < 8
    · exact hp _ h8 (by omega)
    · rw [Slot.byte, List.getD_eq_getElem?_getD, List.getElem?_eq_none]
      · rfl
      · rw [hl, Slot.bufLen]; omega
  simp [Slot.bit, this]

/-! ### The slice window -/

/-- Bit `b` of the window at byte `ws` is bit `8 * ws + b` of the buffer (20_memory.md R80). -/
theorem Slot.getLsbD_window (x : Slot) (ws b : Nat) :
    (x.window ws).getLsbD b = (decide (b < 64) && x.bit (8 * ws + b)) := by
  rw [Slot.window, BitVec.getLsbD_ofNat, testBit_leNat, Slot.getD_bytes, Slot.bit,
    show (8 * ws + b) / 8 = ws + b / 8 by omega, show (8 * ws + b) % 8 = b % 8 by omega]
  by_cases h : b < 64
  · simp [show b / 8 < 8 by omega]
  · simp [h]

/-- Extraction keeps `length` bits from bit `off` on, right-aligned (41_store_access.md R175). -/
theorem getLsbD_extract (w : BitVec 64) {off length : Nat} (h1 : 1 ≤ length) (h2 : off + length ≤ 64)
    (j : Nat) : (extract w off length).getLsbD j = (decide (j < length) && w.getLsbD (off + j)) := by
  rw [extract, BitVec.getLsbD_ushiftRight, BitVec.getLsbD_shiftLeft]
  by_cases h : j < length
  · rw [show 64 - length + j - (64 - off - length) = off + j by omega]
    simp [h]
    intro _
    omega
  · simp [h]
    intro hlt
    omega

/-- Bit `j` of the number that `count` bits make. -/
theorem testBit_bitsValue (x : Slot) (start count j : Nat) :
    (bitsValue x start count).testBit j = (decide (j < count) && x.bit (start + j)) := by
  induction count generalizing j with
  | zero => simp [bitsValue]
  | succ c ih =>
    have hlt : bitsValue x start c < 2 ^ c := by
      apply Nat.lt_pow_two_of_testBit
      intro i hi
      rw [ih]
      simp [Nat.not_lt.2 hi]
    have hs : bitsValue x start (c + 1) =
        2 ^ c * (x.bit (start + c)).toNat + bitsValue x start c := by
      simp only [bitsValue, List.range_succ, List.map_append, List.sum_append, List.map_cons, List.map_nil,
        List.sum_cons, List.sum_nil, Nat.add_zero]
      rw [Nat.add_comm]
      cases x.bit (start + c) <;> simp
    rw [hs, Nat.testBit_two_pow_mul_add _ hlt, ih]
    by_cases h : j < c
    · simp [h, show j < c + 1 by omega]
    · by_cases e : j = c
      · subst e; cases x.bit (start + j) <;> simp
      · have : ¬ j < c + 1 := by omega
        obtain ⟨d, hd⟩ : ∃ d, j - c = d + 1 := ⟨j - c - 1, by omega⟩
        rw [if_neg h, hd]
        cases x.bit (start + c) <;> simp [this, Nat.testBit_succ]

/-- The number that `count` bits make is below `2 ^ count`. -/
theorem bitsValue_lt (x : Slot) (start count : Nat) : bitsValue x start count < 2 ^ count := by
  apply Nat.lt_pow_two_of_testBit
  intro i hi
  rw [testBit_bitsValue]
  simp [Nat.not_lt.2 hi]

/-- The window of a range that stays in it gives the number its bits make (41_store_access.md R178). -/
theorem extract_window (x : Slot) {start length : Nat} (h1 : 1 ≤ length)
    (h : start - 8 * x.windowStart start + length ≤ 64) :
    (extract (x.window (x.windowStart start)) (start - 8 * x.windowStart start) length).setWidth 32 =
      BitVec.ofNat 32 (bitsValue x start length) := by
  apply BitVec.eq_of_getLsbD_eq
  intro j hj
  have hw : 8 * x.windowStart start ≤ start := by simp only [Slot.windowStart]; omega
  rw [BitVec.getLsbD_setWidth, getLsbD_extract _ h1 h, Slot.getLsbD_window, BitVec.getLsbD_ofNat,
    testBit_bitsValue]
  by_cases hjl : j < length
  · rw [show 8 * x.windowStart start + (start - 8 * x.windowStart start + j) = start + j by omega]
    simp [hj, hjl]
    intro _
    omega
  · simp [hjl]

/-- One bit as a word is the number it makes (41_store_access.md R179). -/
theorem bitWord_eq_bitsValue (x : Slot) (start : Nat) :
    bitWord (x.bit start) = BitVec.ofNat 32 (bitsValue x start 1) := by
  cases h : x.bit start <;> simp [bitWord, bitsValue, h]

/-! ### The field width -/

theorem countOnes_spec (mask : BitVec 32) (fuel w : Nat) (hw : ∀ j, j < w → mask.getLsbD j = true) :
    w ≤ countOnes mask fuel w ∧ countOnes mask fuel w ≤ w + fuel ∧
      (∀ j, j < countOnes mask fuel w → mask.getLsbD j = true) ∧
      (countOnes mask fuel w < w + fuel → mask.getLsbD (countOnes mask fuel w) = false) := by
  induction fuel generalizing w with
  | zero => exact ⟨Nat.le_refl _, Nat.le_refl _, hw, fun h => absurd h (Nat.lt_irrefl _)⟩
  | succ fuel ih =>
    unfold countOnes
    by_cases hb : mask.getLsbD w = true
    · rw [if_pos hb]
      have := ih (w + 1) fun j hj => by
        rcases Nat.lt_succ_iff_lt_or_eq.1 hj with h | h
        · exact hw j h
        · subst h; exact hb
      refine ⟨by omega, by omega, this.2.2.1, fun h => this.2.2.2 (by omega)⟩
    · rw [if_neg hb]
      exact ⟨Nat.le_refl _, by omega, hw, fun _ => by simpa using hb⟩

theorem fieldWidth_le (mask : BitVec 32) : fieldWidth mask ≤ 32 :=
  (countOnes_spec mask 32 0 (fun j hj => absurd hj (Nat.not_lt_zero j))).2.1

/-! ### The packed integer -/

theorem packInto_length (fs : List Field) (acc pos : Nat) :
    (packInto fs acc pos).2 = pos + widthSum fs := by
  induction fs generalizing acc pos with
  | nil => simp [packInto, widthSum]
  | cons f fs ih => simp [packInto, ih, widthSum]; omega

/-- The packed integer: the bits below `pos` are those before, then come the fields' bits. -/
theorem packInto_split (fs : List Field) (acc pos : Nat) (h : acc < 2 ^ pos) :
    (packInto fs acc pos).1 = (packInto fs 0 0).1 * 2 ^ pos + acc ∧
      (packInto fs 0 0).1 < 2 ^ widthSum fs := by
  induction fs generalizing acc pos with
  | nil => simp [packInto, widthSum]
  | cons f fs ih =>
    have hv : f.value.toNat % 2 ^ f.width < 2 ^ f.width := Nat.mod_lt _ (Nat.two_pow_pos _)
    have hor : acc ||| ((f.value.toNat % 2 ^ f.width) <<< pos) =
        (f.value.toNat % 2 ^ f.width) * 2 ^ pos + acc := by
      rw [Nat.lor_comm, ← Nat.shiftLeft_add_eq_or_of_lt h, Nat.shiftLeft_eq]
    have hlt : (f.value.toNat % 2 ^ f.width) * 2 ^ pos + acc < 2 ^ (pos + f.width) := by
      have : (f.value.toNat % 2 ^ f.width + 1) * 2 ^ pos ≤ 2 ^ f.width * 2 ^ pos :=
        Nat.mul_le_mul_right _ hv
      rw [Nat.pow_add, Nat.mul_comm (2 ^ pos)]
      rw [Nat.add_mul] at this
      omega
    have h0 : (0 : Nat) ||| ((f.value.toNat % 2 ^ f.width) <<< 0) = f.value.toNat % 2 ^ f.width := by
      simp
    have ih1 := ih _ _ (hor ▸ hlt)
    have ih2 := ih (f.value.toNat % 2 ^ f.width) (0 + f.width) (by simpa using hv)
    simp only [packInto]
    rw [ih1.1, h0, ih2.1, hor]
    have hs : widthSum (f :: fs) = f.width + widthSum fs := by simp [widthSum]
    refine ⟨?_, ?_⟩
    · simp only [Nat.zero_add, Nat.pow_add]
      ring
    · rw [hs, Nat.pow_add 2 f.width]
      have : ((packInto fs 0 0).1 + 1) * 2 ^ f.width ≤ 2 ^ widthSum fs * 2 ^ f.width :=
        Nat.mul_le_mul_right _ ih2.2
      rw [Nat.add_mul] at this
      rw [Nat.mul_comm (2 ^ f.width)]
      simp only [Nat.zero_add]
      omega

/-- The packed integer of a field list, bit by bit: first the first field's low bits, then the rest
(42_packer.md R226). -/
theorem testBit_packInto_cons (f : Field) (fs : List Field) (j : Nat) :
    (packInto (f :: fs) 0 0).1.testBit j =
      if j < f.width then f.value.getLsbD j else (packInto fs 0 0).1.testBit (j - f.width) := by
  have hv : f.value.toNat % 2 ^ f.width < 2 ^ f.width := Nat.mod_lt _ (Nat.two_pow_pos _)
  simp only [packInto, Nat.zero_or, Nat.shiftLeft_zero, Nat.zero_add]
  rw [(packInto_split fs _ _ hv).1, Nat.mul_comm, Nat.testBit_two_pow_mul_add _ hv]
  split
  · rename_i h
    rw [Nat.testBit_mod_two_pow]
    simp [h, BitVec.getLsbD]
  · rfl

@[simp] theorem length_pack (fs : List Field) : (pack fs).length = (widthSum fs + 7) / 8 := by
  simp [pack, packInto_length]

/-- Bit `i` of the packed bytes is bit `i` of the packed integer (42_packer.md R226). -/
theorem bit_pack (fs : List Field) (i : Nat) :
    ((pack fs).getD (i / 8) 0x00).getLsbD (i % 8) = (packInto fs 0 0).1.testBit i := by
  have hlt := (packInto_split fs 0 0 (by simp)).2
  rw [pack, bit_bytesLE, packInto_length]
  by_cases h : i < widthSum fs
  · rw [decide_eq_true (by omega), Bool.true_and]
  · rw [Nat.testBit_lt_two_pow (Nat.lt_of_lt_of_le hlt (Nat.pow_le_pow_right (by omega) (by omega)))]
    simp

end Sys2Proof.Machine
end

