-- ==== Sys2Proof/Laws/Ops.lean ====
section
/-! SUPPORT. Once for each shared operation, everything it can do: slots read and written, the end of a command,
`construct`, `addField`, `buildStore`. -/

namespace Sys2Proof.Machine

/-! ### Slots -/

theorem State.slot_eq_getElem {s : State} {sa : SlotNum} (h : sa.toNat < s.slots.length) :
    s.slot sa = s.slots[sa.toNat] := by
  simp [State.slot, List.getD_eq_getElem?_getD, h]

theorem State.slot_setSlot_same {s : State} {sa : SlotNum} (x : Slot) (h : sa.toNat < s.slots.length) :
    (s.setSlot sa x).slot sa = x := by
  simp [State.slot, List.getD_eq_getElem?_getD, h]

theorem State.slot_setSlot_ne {s : State} {sa sb : SlotNum} (x : Slot) (h : sb ≠ sa) :
    (s.setSlot sa x).slot sb = s.slot sb := by
  have : sa.toNat ≠ sb.toNat := fun e => h (BitVec.eq_of_toNat_eq e.symm)
  simp [State.slot, List.getD_eq_getElem?_getD, List.getElem?_set_ne this]

/-- A slot that is a member of the list, or the empty slot. -/
theorem State.slot_mem {s : State} {sa : SlotNum} (h : sa.toNat < s.slots.length) : s.slot sa ∈ s.slots := by
  rw [State.slot_eq_getElem h]
  exact List.getElem_mem h

/-- In a state that meets the invariant every slot is well formed, named or not. -/
theorem State.slot_wf {s : State} (hs : s.Inv) (sa : SlotNum) : (s.slot sa).wf s.params.maxBytes := by
  by_cases h : sa.toNat < s.slots.length
  · exact hs.2.2.1 _ (State.slot_mem h)
  · have : s.slot sa = Slot.empty := by
      simp [State.slot, List.getD_eq_getElem?_getD, List.getElem?_eq_none (Nat.not_lt.1 h)]
    rw [this]
    exact ⟨fun hv => by simp at hv, fun _ => rfl⟩

/-- Replacing a slot touches no other. -/
theorem State.setSlot_keepsSlotsBut (s : State) (sa : SlotNum) (x : Slot) :
    KeepsSlotsBut sa s (s.setSlot sa x) := by
  refine ⟨by simp, fun k hk => ?_⟩
  rw [State.setSlot_slots, List.getElem?_set_ne (fun e => hk e.symm)]

/-! ### The end of a command -/

theorem raise_next {e : ErrCode} {s t : State} : raise e s = .next t ↔ t = { s with err := e } := by
  simp [raise, eq_comm]

theorem complete_next {s t : State} : complete s = .next t ↔ t = { s with err := .ok } := by
  simp [complete, eq_comm]

@[simp] theorem conclude_ok (s t : State) : conclude s (.ok t) = complete t := rfl

@[simp] theorem conclude_error (s : State) (e : ErrCode) : conclude s (.error e) = raise e s := rfl

/-! ### `construct` -/

theorem construct_of_empty {sa : SlotNum} {bs : List Byte} {m : Bool} {s : State} (h : bs.length = 0) :
    construct sa bs m s = .error .invalidArgument := by
  rw [construct, if_pos h]

theorem construct_of_long {sa : SlotNum} {bs : List Byte} {m : Bool} {s : State} (h0 : bs.length ≠ 0)
    (h : s.params.maxBytes < bs.length) : construct sa bs m s = .error .capacity := by
  rw [construct, if_neg h0, if_pos h]

theorem construct_of_fits {sa : SlotNum} {bs : List Byte} {m : Bool} {s : State} (h0 : bs.length ≠ 0)
    (h : bs.length ≤ s.params.maxBytes) :
    construct sa bs m s = .ok (s.setSlot sa (builtSlot bs m)) := by
  rw [construct, if_neg h0, if_neg (by omega)]

/-- What `construct` answers when it answers a state (40_store_construction.md R130). -/
theorem construct_ok_iff {sa : SlotNum} {bs : List Byte} {m : Bool} {s t : State} :
    construct sa bs m s = .ok t ↔
      0 < bs.length ∧ bs.length ≤ s.params.maxBytes ∧ t = s.setSlot sa (builtSlot bs m) := by
  unfold construct
  split
  · simp; omega
  · split
    · simp; omega
    · rw [Except.ok.injEq]
      constructor
      · rintro rfl; exact ⟨by omega, by omega, rfl⟩
      · rintro ⟨-, -, rfl⟩; rfl

/-! ### `addField` -/

theorem addField_of_spent {v : BitVec 64} {mask : BitVec 32} {s : State} (h : s.pk.spent = true) :
    addField v mask s = .error .packerSpent := by
  rw [addField, if_pos h]

theorem addField_of_full {v : BitVec 64} {mask : BitVec 32} {s : State} (h0 : s.pk.spent = false)
    (h : s.pk.fields.length = s.params.maxFields) : addField v mask s = .error .capacity := by
  rw [addField, if_neg (by simp [h0]), if_pos h]

/-- What `addField` does when the packer takes the field (42_packer.md R222). -/
theorem addField_of_room {v : BitVec 64} {mask : BitVec 32} {s : State} (h0 : s.pk.spent = false)
    (h : s.pk.fields.length ≠ s.params.maxFields) :
    addField v mask s = .ok { s with
      pk := { s.pk with
        fields := s.pk.fields ++ [⟨v, mask, fieldWidth mask⟩]
        totalBits := s.pk.totalBits + fieldWidth mask }
      result := u32 (s.pk.totalBits : Int)
      result2 := u32 ((s.pk.totalBits : Int) + fieldWidth mask - 1) } := by
  rw [addField, if_neg (by simp [h0]), if_neg h]

/-- Everything `addField` can do. -/
theorem addField_cases (v : BitVec 64) (mask : BitVec 32) (s : State) :
    (s.pk.spent = true ∧ addField v mask s = .error .packerSpent) ∨
    (s.pk.spent = false ∧ s.pk.fields.length = s.params.maxFields ∧
      addField v mask s = .error .capacity) ∨
    (s.pk.spent = false ∧ s.pk.fields.length ≠ s.params.maxFields ∧
      addField v mask s = .ok { s with
        pk := { s.pk with
          fields := s.pk.fields ++ [⟨v, mask, fieldWidth mask⟩]
          totalBits := s.pk.totalBits + fieldWidth mask }
        result := u32 (s.pk.totalBits : Int)
        result2 := u32 ((s.pk.totalBits : Int) + fieldWidth mask - 1) }) := by
  cases h0 : s.pk.spent with
  | true => exact .inl ⟨rfl, addField_of_spent h0⟩
  | false =>
    by_cases h : s.pk.fields.length = s.params.maxFields
    · exact .inr (.inl ⟨rfl, h, addField_of_full h0 h⟩)
    · exact .inr (.inr ⟨rfl, h, addField_of_room h0 h⟩)

/-- A packer that takes one more field stays well formed (10_state.md R40). -/
theorem Packer.wf_append {pk : Packer} {maxFields : Nat} (h : pk.wf maxFields)
    (hroom : pk.fields.length ≠ maxFields) (v : BitVec 64) (mask : BitVec 32) :
    Packer.wf maxFields { pk with
      fields := pk.fields ++ [⟨v, mask, fieldWidth mask⟩]
      totalBits := pk.totalBits + fieldWidth mask } := by
  refine ⟨?_, fun f hf => ?_, ?_⟩
  · have := h.1
    simp; omega
  · rcases List.mem_append.1 hf with hf | hf
    · exact h.2.1 f hf
    · rw [List.mem_singleton.1 hf]
  · have := h.2.2
    simp [widthSum] at this ⊢
    omega

/-! ### `buildStore` -/

/-- What the last part of PBUILD does with bytes that fit (42_packer.md R228). -/
theorem buildStore_of_fits {sa : SlotNum} {bs : List Byte} {m : Bool} {s : State} (h0 : bs.length ≠ 0)
    (h : bs.length ≤ s.params.maxBytes) :
    buildStore sa bs m s = .ok { s.setSlot sa (builtSlot bs m) with
      pk := { s.pk with spent := true }
      result := u32 (bs.length : Int)
      result2 := u32 (s.pk.totalBits : Int) } := by
  rw [buildStore, construct_of_fits h0 h]
  rfl

end Sys2Proof.Machine
end

