-- ==== Sys2Proof/Laws/Exec.lean ====
section
/-! SUPPORT. Everything a command can do, said once: it raises an error, or it completes in a state that differs
from the one before as `Effect` says. Later proofs cite `exec_cases` and do not unfold the meanings. -/

namespace Sys2Proof.Machine

/-- What a completing command may make of the slot it writes: a built store, no store, or, for SET, the store
with one byte changed. -/
inductive SlotEffect (i : Instr) (s : State) (sa : SlotNum) : Slot → Prop
  | built (m : Bool) (bs : List Byte) (h0 : 0 < bs.length) (h1 : bs.length ≤ s.params.maxBytes) :
      SlotEffect i s sa (builtSlot bs m)
  | freed : SlotEffect i s sa Slot.empty
  | bitSet (hi : i = .set sa) (hv : (s.slot sa).valid = true) (hm : (s.slot sa).mutable = true)
      (hin : ¬OutsideStore (s.slot sa) s.opa.toInt) :
      SlotEffect i s sa { s.slot sa with
        buf := (s.slot sa).buf.set (s.opa.toInt.toNat / 8)
          (setBit ((s.slot sa).byte (s.opa.toInt.toNat / 8)) (s.opa.toInt.toNat % 8) (s.opb.getLsbD 0)) }

/-- What a completing command may make of the packer: empty, spent, or with one more field. -/
inductive PackerEffect (s : State) : Packer → Prop
  | cleared : PackerEffect s Packer.empty
  | built : PackerEffect s { s.pk with spent := true }
  | added (v : BitVec 64) (mask : BitVec 32) (h0 : s.pk.spent = false)
      (h : s.pk.fields.length ≠ s.params.maxFields) :
      PackerEffect s { s.pk with
        fields := s.pk.fields ++ [⟨v, mask, fieldWidth mask⟩]
        totalBits := s.pk.totalBits + fieldWidth mask }

/-- How the state `t` a command completes in, before STATUS.ERR is cleared, differs from the state `s` before
the command (30_encoding.md R107). -/
structure Effect (i : Instr) (s t : State) : Prop where
  operands : KeepsOperands s t
  result : i.writesResult = false → t.result = s.result
  result2 : i.writesResult2 = false → t.result2 = s.result2
  data : t.data = s.data ∨ (i.writesData = true ∧ ∃ sa n, (s.slot sa).valid = true ∧
    n ≤ (s.slot sa).bufLen ∧ t.data = s.data.writeBytes 0 ((s.slot sa).bytes 0 n))
  packer : t.pk = s.pk ∨ (i.writesPacker = true ∧ PackerEffect s t.pk)
  slots : t.slots = s.slots ∨ ∃ sa x, i.writesSlot = some sa ∧ t.slots = s.slots.set sa.toNat x ∧
    SlotEffect i s sa x

/-- A command that changes no slot, packer field or DATA byte. -/
theorem Effect.ofResult (i : Instr) (s : State) (w : Word) (h : i.writesResult = true) :
    Effect i s { s with result := w } :=
  ⟨⟨rfl, rfl, rfl, rfl, rfl, rfl, rfl, rfl, rfl⟩, by simp [h], by simp, .inl rfl, .inl rfl, .inl rfl⟩

/-- A command that replaces its slot. -/
theorem Effect.ofSlot (i : Instr) (s : State) (sa : SlotNum) (x : Slot) (h : i.writesSlot = some sa)
    (hx : SlotEffect i s sa x) : Effect i s (s.setSlot sa x) :=
  ⟨⟨rfl, rfl, rfl, rfl, rfl, rfl, rfl, rfl, rfl⟩,
    by simp, by simp, .inl rfl, .inl rfl, .inr ⟨sa, x, h, rfl, hx⟩⟩

/-- Every way a command can end. -/
def EndsWell (i : Instr) (s : State) : Prop :=
  (∃ e, e ≠ .ok ∧ e ≠ .illegalCommand ∧ exec i s = raise e s) ∨ ∃ t, exec i s = complete t ∧ Effect i s t

theorem EndsWell.ofRaise {i : Instr} {s : State} (e : ErrCode) (h : exec i s = raise e s)
    (h0 : e ≠ .ok := by decide) (h1 : e ≠ .illegalCommand := by decide) : EndsWell i s :=
  .inl ⟨e, h0, h1, h⟩

/-- A command that ends in `construct`. -/
theorem EndsWell.ofConstruct {i : Instr} {s : State} {sa : SlotNum} {bs : List Byte} {m : Bool}
    (hi : i.writesSlot = some sa) (h : exec i s = conclude s (construct sa bs m s)) : EndsWell i s := by
  by_cases h0 : bs.length = 0
  · rw [construct_of_empty h0] at h
    exact .ofRaise _ h
  · by_cases h1 : s.params.maxBytes < bs.length
    · rw [construct_of_long h0 h1] at h
      exact .ofRaise _ h
    · rw [construct_of_fits h0 (by omega)] at h
      exact .inr ⟨_, h, Effect.ofSlot _ _ _ _ hi (.built m bs (by omega) (by omega))⟩

/-- A command that ends in `addField`. -/
theorem EndsWell.ofAddField {i : Instr} {s : State} {v : BitVec 64} {mask : BitVec 32} (hi : i.isAdd = true)
    (h : exec i s = conclude s (addField v mask s)) : EndsWell i s := by
  have hr : i.writesResult = true ∧ i.writesResult2 = true ∧ i.writesPacker = true := by
    cases i <;> first | exact ⟨rfl, rfl, rfl⟩ | simp [Instr.isAdd] at hi
  rcases addField_cases v mask s with ⟨-, e⟩ | ⟨-, -, e⟩ | ⟨h0, h1, e⟩
  · rw [e] at h; exact .ofRaise _ h
  · rw [e] at h; exact .ofRaise _ h
  · rw [e] at h
    exact .inr ⟨_, h, ⟨rfl, rfl, rfl, rfl, rfl, rfl, rfl, rfl, rfl⟩,
      by simp [hr], by simp [hr], .inl rfl, .inr ⟨hr.2.2, .added v mask h0 h1⟩,
      .inl rfl⟩

/-- Everything a command can do: it raises one of the errors its rule names and changes nothing else, or it
completes with its effect. -/
theorem exec_cases (i : Instr) (s : State) : EndsWell i s := by
  cases i
  case nop => exact .inr ⟨s, rfl, ⟨rfl, rfl, rfl, rfl, rfl, rfl, rfl, rfl, rfl⟩,
    by simp, by simp, .inl rfl, .inl rfl, .inl rfl⟩
  case loadb m sa =>
    by_cases h0 : s.opa.toNat = 0
    · exact .ofRaise .invalidArgument (by simp [exec, execLoadb, h0])
    · by_cases h1 : s.params.maxBytes < s.opa.toNat
      · exact .ofRaise .capacity (by simp [exec, execLoadb, h0, h1])
      · exact .ofConstruct (sa := sa) (m := m) (bs := s.data.readBytes 0 s.opa.toNat) rfl
          (by simp [exec, execLoadb, h0, h1])
  case load8 m sa => exact .ofConstruct rfl rfl
  case load16 m sa => exact .ofConstruct rfl rfl
  case load32 m sa => exact .ofConstruct rfl rfl
  case load64 m sa => exact .ofConstruct rfl rfl
  case load128 m sa => exact .ofConstruct rfl rfl
  case copy m sa sb =>
    by_cases hv : (s.slot sb).valid = false
    · exact .ofRaise .noStore (by simp [exec, execCopy, hv])
    · exact .ofConstruct (sa := sa) (m := m) (bs := (s.slot sb).bytes 0 (s.slot sb).n) rfl
        (by simp [exec, execCopy, hv])
  case free sa => exact .inr ⟨_, rfl, Effect.ofSlot _ _ _ _ rfl .freed⟩
  case get sa =>
    simp only [EndsWell, exec, execGet]
    split
    · exact .inl ⟨_, by decide, by decide, rfl⟩
    split
    · exact .inl ⟨_, by decide, by decide, rfl⟩
    exact .inr ⟨_, rfl, Effect.ofResult _ _ _ rfl⟩
  case set sa =>
    simp only [EndsWell, exec, execSet]
    split
    · exact .inl ⟨_, by decide, by decide, rfl⟩
    split
    · exact .inl ⟨_, by decide, by decide, rfl⟩
    split
    · exact .inl ⟨_, by decide, by decide, rfl⟩
    rename_i h1 h2 h3
    exact .inr ⟨_, rfl, Effect.ofSlot _ _ _ _ rfl (.bitSet rfl (by simpa using h1) (by simpa using h2) h3)⟩
  case slice sa =>
    simp only [EndsWell, exec, execSlice]
    split
    · exact .inl ⟨_, by decide, by decide, rfl⟩
    split
    · exact .inl ⟨_, by decide, by decide, rfl⟩
    split
    · exact .inl ⟨_, by decide, by decide, rfl⟩
    split
    · exact .inr ⟨_, rfl, Effect.ofResult _ _ _ rfl⟩
    split
    · exact .inl ⟨_, by decide, by decide, rfl⟩
    exact .inr ⟨_, rfl, Effect.ofResult _ _ _ rfl⟩
  case count sa =>
    simp only [EndsWell, exec, execCount]
    split
    · exact .inl ⟨_, by decide, by decide, rfl⟩
    exact .inr ⟨_, rfl, Effect.ofResult _ _ _ rfl⟩
  case nbytes sa =>
    simp only [EndsWell, exec, execNbytes]
    split
    · exact .inl ⟨_, by decide, by decide, rfl⟩
    exact .inr ⟨_, rfl, Effect.ofResult _ _ _ rfl⟩
  case exportAll sa =>
    simp only [EndsWell, exec, execExportAll]
    split
    · exact .inl ⟨_, by decide, by decide, rfl⟩
    rename_i h
    exact .inr ⟨_, rfl, ⟨rfl, rfl, rfl, rfl, rfl, rfl, rfl, rfl, rfl⟩,
      by simp [Instr.writesResult], by simp,
      .inr ⟨rfl, sa, _, by simpa using h, Nat.le_refl _, rfl⟩, .inl rfl, .inl rfl⟩
  case exportLogical sa =>
    simp only [EndsWell, exec, execExportLogical]
    split
    · exact .inl ⟨_, by decide, by decide, rfl⟩
    rename_i h
    exact .inr ⟨_, rfl, ⟨rfl, rfl, rfl, rfl, rfl, rfl, rfl, rfl, rfl⟩,
      by simp [Instr.writesResult], by simp,
      .inr ⟨rfl, sa, _, by simpa using h, by simp [Slot.bufLen], rfl⟩, .inl rfl, .inl rfl⟩
  case eq sa sb =>
    simp only [EndsWell, exec, execEq]
    split
    · exact .inl ⟨_, by decide, by decide, rfl⟩
    split
    · exact .inl ⟨_, by decide, by decide, rfl⟩
    split
    · exact .inr ⟨_, rfl, Effect.ofResult _ _ _ rfl⟩
    split
    · exact .inl ⟨_, by decide, by decide, rfl⟩
    split <;> exact .inr ⟨_, rfl, Effect.ofResult _ _ _ rfl⟩
  case padd => exact .ofAddField rfl rfl
  case paddb => exact .ofAddField rfl rfl
  case padd8 => exact .ofAddField rfl rfl
  case padd16 => exact .ofAddField rfl rfl
  case pbuild m sa =>
    simp only [EndsWell, exec, execPbuild]
    split
    · exact .inl ⟨_, by decide, by decide, rfl⟩
    split
    · exact .inl ⟨_, by decide, by decide, rfl⟩
    split
    · exact .inl ⟨_, by decide, by decide, rfl⟩
    by_cases h0 : (pack s.pk.fields).length = 0
    · rw [buildStore, construct_of_empty h0]
      exact .inl ⟨_, by decide, by decide, rfl⟩
    · rw [buildStore_of_fits h0 (by omega)]
      exact .inr ⟨_, rfl, ⟨rfl, rfl, rfl, rfl, rfl, rfl, rfl, rfl, rfl⟩,
      by simp [Instr.writesResult], by simp [Instr.writesResult2], .inl rfl,
        .inr ⟨rfl, .built⟩, .inr ⟨sa, _, rfl, rfl, .built m _ (by omega) (by omega)⟩⟩
  case pclear => exact .inr ⟨_, rfl, ⟨rfl, rfl, rfl, rfl, rfl, rfl, rfl, rfl, rfl⟩,
      by simp, by simp, .inl rfl, .inr ⟨rfl, .cleared⟩, .inl rfl⟩

end Sys2Proof.Machine
end

