-- ==== Sys2Proof/Laws/PerInstr.lean ====
section
/-! SUPPORT. A fact about the words of the commands, one lemma per constructor: no command's word sets a reserved
bit (30_encoding.md R101). -/

namespace Sys2Proof.Laws.ReservedBitsZero

/-- In every command word bit 7 and bits [31:16] are 0, whatever M, SA and SB are. -/
theorem commandWord_reserved (op : BitVec 6) (m : Bool) (sa sb : SlotNum) :
    (commandWord op m sa sb).getLsbD 7 = false ∧
      ∀ k, 16 ≤ k → (commandWord op m sa sb).getLsbD k = false := by
  refine ⟨by simp [commandWord], fun k hk => ?_⟩
  by_cases h : k < 32
  · simp only [commandWord, BitVec.getLsbD_or, BitVec.getLsbD_shiftLeft, BitVec.getLsbD_setWidth]
    rw [BitVec.getLsbD_of_ge op k (by omega), BitVec.getLsbD_of_ge sa (k - 8) (by omega),
      BitVec.getLsbD_of_ge sb (k - 12) (by omega), BitVec.getLsbD_of_ge _ (k - 6) (by omega)]
    simp
  · exact BitVec.getLsbD_of_ge _ k (by omega)

/-- The word of a command sets neither bit 7 nor any of bits [31:16]. -/
def Statement (i : Instr) : Prop :=
  (encode i).getLsbD 7 = false ∧ ∀ k, 16 ≤ k → (encode i).getLsbD k = false

theorem nop : Statement .nop := commandWord_reserved _ _ _ _

theorem loadb (m : Bool) (sa : SlotNum) : Statement (.loadb m sa) := commandWord_reserved _ _ _ _

theorem load8 (m : Bool) (sa : SlotNum) : Statement (.load8 m sa) := commandWord_reserved _ _ _ _

theorem load16 (m : Bool) (sa : SlotNum) : Statement (.load16 m sa) := commandWord_reserved _ _ _ _

theorem load32 (m : Bool) (sa : SlotNum) : Statement (.load32 m sa) := commandWord_reserved _ _ _ _

theorem load64 (m : Bool) (sa : SlotNum) : Statement (.load64 m sa) := commandWord_reserved _ _ _ _

theorem load128 (m : Bool) (sa : SlotNum) : Statement (.load128 m sa) := commandWord_reserved _ _ _ _

theorem copy (m : Bool) (sa : SlotNum) (sb : SlotNum) : Statement (.copy m sa sb) := commandWord_reserved _ _ _ _

theorem free (sa : SlotNum) : Statement (.free sa) := commandWord_reserved _ _ _ _

theorem get (sa : SlotNum) : Statement (.get sa) := commandWord_reserved _ _ _ _

theorem set (sa : SlotNum) : Statement (.set sa) := commandWord_reserved _ _ _ _

theorem slice (sa : SlotNum) : Statement (.slice sa) := commandWord_reserved _ _ _ _

theorem count (sa : SlotNum) : Statement (.count sa) := commandWord_reserved _ _ _ _

theorem nbytes (sa : SlotNum) : Statement (.nbytes sa) := commandWord_reserved _ _ _ _

theorem exportAll (sa : SlotNum) : Statement (.exportAll sa) := commandWord_reserved _ _ _ _

theorem exportLogical (sa : SlotNum) : Statement (.exportLogical sa) := commandWord_reserved _ _ _ _

theorem eq (sa : SlotNum) (sb : SlotNum) : Statement (.eq sa sb) := commandWord_reserved _ _ _ _

theorem padd : Statement .padd := commandWord_reserved _ _ _ _

theorem paddb : Statement .paddb := commandWord_reserved _ _ _ _

theorem padd8 : Statement .padd8 := commandWord_reserved _ _ _ _

theorem padd16 : Statement .padd16 := commandWord_reserved _ _ _ _

theorem pbuild (m : Bool) (sa : SlotNum) : Statement (.pbuild m sa) := commandWord_reserved _ _ _ _

theorem pclear : Statement .pclear := commandWord_reserved _ _ _ _

end Sys2Proof.Laws.ReservedBitsZero
end

