-- ==== Sys2Proof/Laws/Step.lean ====
section
/-! SUPPORT. The step and the bus, said once: where an address falls, what the register range and the DATA window
answer, and what a write may change. -/

namespace Sys2Proof.Machine

/-- With nothing pending the block waits (70_reset_and_hazards.md R302). -/
theorem step_of_empty {s : State} (h : s.port = []) : step s = .next s := by
  rw [step, h]

/-- The step handles the oldest pending access on the state without it. -/
theorem step_of_access {s : State} {a : BusAccess} {rest : List PortEvent} (h : s.port = .access a :: rest) :
    step s = handleAccess a { s with port := rest } := by
  rw [step, h]
  rfl

/-- The step of the reset event. -/
theorem step_of_reset {s : State} {rest : List PortEvent} (h : s.port = .reset :: rest) :
    step s = .next { s with port := rest }.afterReset := by
  rw [step, h]
  rfl

/-- An address inside the window has its offset from `BASE` (20_memory.md R71). -/
theorem windowOffset_add {s : State} {off : Nat} (h : off < dataOffset + s.params.maxBytes) :
    s.windowOffset (s.params.base + off) = some off := by
  rw [State.windowOffset, if_pos ⟨by omega, by omega⟩]
  simp

/-- What an offset in the window says of the address. -/
theorem windowOffset_eq_some {s : State} {addr off : Nat} (h : s.windowOffset addr = some off) :
    addr = s.params.base + off ∧ off < dataOffset + s.params.maxBytes := by
  unfold State.windowOffset at h
  split at h
  · simp at h; omega
  · simp at h

/-- A 32-bit read of a register at its offset (10_state.md R42). -/
theorem busRead_reg (s : State) (r : Reg) : s.busRead r.offset 32 = .readWord (s.reg r) := by
  cases r <;> rfl

/-- An 8-bit read of a DATA byte (20_memory.md R74). -/
theorem busRead_byte {s : State} {k : Nat} (h : k < s.params.maxBytes) :
    s.busRead (0x100 + k) 8 = .readByte (s.data.read k) := by
  rw [State.busRead, if_neg (by simp [dataOffset])]
  have : 0x100 + k - dataOffset = k := by simp [dataOffset]
  simp [this, dataAccepts, h]

/-- A 32-bit read of four DATA bytes (20_memory.md R72, R74). -/
theorem busRead_word {s : State} {k : Nat} (h4 : k % 4 = 0) (h : k + 4 ≤ s.params.maxBytes) :
    s.busRead (0x100 + k) 32 = .readWord (BitVec.ofNat 32 (leNat (s.data.readBytes k 4))) := by
  rw [State.busRead, if_neg (by simp [dataOffset])]
  have : 0x100 + k - dataOffset = k := by simp [dataOffset]
  simp [this, dataAccepts, h, h4]

/-- An 8-bit write of a DATA byte (20_memory.md R74). -/
theorem busWrite_byte {s : State} {k : Nat} (w : Word) (h : k < s.params.maxBytes) :
    s.busWrite (0x100 + k) 8 w = .stored { s with data := s.data.write k (w.extractLsb' 0 8) } := by
  rw [State.busWrite, if_neg (by simp [dataOffset])]
  have : 0x100 + k - dataOffset = k := by simp [dataOffset]
  simp [this, dataAccepts, h]

/-- A 32-bit write of four DATA bytes (20_memory.md R72, R74). -/
theorem busWrite_word {s : State} {k : Nat} (w : Word) (h4 : k % 4 = 0) (h : k + 4 ≤ s.params.maxBytes) :
    s.busWrite (0x100 + k) 32 w = .stored { s with data := s.data.writeBytes k (bytesLE 4 w.toNat) } := by
  rw [State.busWrite, if_neg (by simp [dataOffset])]
  have : 0x100 + k - dataOffset = k := by simp [dataOffset]
  simp [this, dataAccepts, h, h4]

/-- A 32-bit write at the offset of CMD is a command (10_state.md R43). -/
theorem busWrite_cmd (s : State) (w : Word) : s.busWrite 0x000 32 w = .command w := rfl

/-- The offset of no register. -/
theorem atOffset_reserved {off : Nat} (h : 0x03C ≤ off) : Reg.atOffset off = none := by
  unfold Reg.atOffset
  split <;> first | omega | rfl

/-- What a write that stores may change: an operand register, or DATA bytes inside the window. -/
theorem busWrite_stored {s t : State} {off bits : Nat} {w : Word} (h : s.busWrite off bits w = .stored t) :
    (∃ r, t = s.setReg r w) ∨ t = s ∨
      ∃ k bs, k + bs.length ≤ s.params.maxBytes ∧ t = { s with data := s.data.writeBytes k bs } := by
  unfold State.busWrite at h
  split at h
  · split at h
    · split at h
      · simp at h
      · rename_i r _ _
        simp only [WriteEffect.stored.injEq] at h
        exact .inl ⟨r, h.symm⟩
      · simp only [WriteEffect.stored.injEq] at h
        exact .inr (.inl h.symm)
    · simp at h
  · simp only at h
    split at h
    · rename_i hacc
      simp only [dataAccepts, Bool.or_eq_true, Bool.and_eq_true, decide_eq_true_eq] at hacc
      split at h
      · rename_i hb
        simp only [WriteEffect.stored.injEq] at h
        exact .inr (.inr ⟨off - dataOffset, [w.extractLsb' 0 8], by simp; omega, h.symm⟩)
      · simp only [WriteEffect.stored.injEq] at h
        exact .inr (.inr ⟨off - dataOffset, bytesLE 4 w.toNat, by simp; omega, h.symm⟩)
    · simp at h

/-- Everything the handling of an access can do: answer it and nothing else, store and answer, or run a command
and answer. -/
theorem handleAccess_cases (a : BusAccess) (s : State) :
    (∃ r, handleAccess a s = .next (s.reply r)) ∨
    (∃ off w t, s.busWrite off a.bits w = .stored t ∧ handleAccess a s = .next (t.reply .written)) ∨
    (∃ w, a.dir = .write w ∧ handleAccess a s = answered (runCommand w s)) := by
  unfold handleAccess
  cases hw : s.windowOffset a.addr with
  | none => exact .inl ⟨_, rfl⟩
  | some off =>
    cases hd : a.dir with
    | read => exact .inl ⟨_, rfl⟩
    | write w =>
      dsimp only
      cases hb : s.busWrite off a.bits w with
      | stored t => exact .inr (.inl ⟨off, w, t, hb, rfl⟩)
      | command c =>
        refine .inr (.inr ⟨w, rfl, ?_⟩)
        have : c = w := by
          unfold State.busWrite at hb
          split at hb
          · split at hb
            · split at hb <;> simp at hb
              exact hb.symm
            · simp at hb
          · simp only at hb
            split at hb
            · split at hb <;> simp at hb
            · simp at hb
        subst this
        rfl
      | unsupported => exact .inl ⟨_, rfl⟩

/-- Everything a CMD write can do: run the decoded command, or raise IllegalCommand. -/
theorem runCommand_cases (w : Word) (s : State) :
    (∃ i, decode s.params w = .ok i ∧ runCommand w s = exec i s) ∨
    (∃ e, decode s.params w = .error e ∧ runCommand w s = raise .illegalCommand s) := by
  unfold runCommand
  cases decode s.params w with
  | ok i => exact .inl ⟨i, rfl, rfl⟩
  | error e => exact .inr ⟨e, rfl, rfl⟩

end Sys2Proof.Machine
end

