-- ==== Sys2Proof/Tests/Slice0.lean ====
section
/-! SUPPORT. Tests of the model, each a named theorem: ill-formed commands, decoded words, one step of each
command, bus accesses and script lines. Expected values are the spec's (95_test_vectors.md and the examples of
the rules), unless a comment says how they were worked out by hand. -/

namespace Sys2Proof.Tests

open Sys2Proof Sys2Proof.Machine

/-! ### Helpers -/

/-- What a result's state shows, if it is a state. -/
def after {α : Type} (show' : State → α) : Result → Option α
  | .next t => some (show' t)
  | .fault _ => none
  | .refused _ => none

/-- A state after reset, with the given slots 0 to 3. -/
def withSlots (a b c d : Slot) : State := { State.reset with slots := [a, b, c, d] }

/-- A state after reset, with OPA and OPB as given and slot 0 holding `x`. -/
def store (x : Slot) (opa opb : Word) : State :=
  { withSlots x .empty .empty .empty with opa := opa, opb := opb }

/-- A state after reset, with the given inputs pending. -/
def pending (es : List PortEvent) : State := { State.reset with port := es }

/-! ### Well-formed commands -/

theorem test_wellFormed_refuses_slot_a : ¬(Instr.get 4).wellFormed Params.suggested := by decide
theorem test_wellFormed_refuses_slot_b : ¬(Instr.copy false 0 4).wellFormed Params.suggested := by decide
theorem test_wellFormed_allows : (Instr.eq 3 3).wellFormed Params.suggested := by decide

/-! ### Decoding: every word is `OP | M << 6 | SA << 8 | SB << 12`, written out (30_encoding.md R101, R103) -/

theorem test_decode_nop : decode Params.suggested 0x00000000 = .ok .nop := by decide
theorem test_decode_loadb : decode Params.suggested 0x00000041 = .ok (.loadb true 0) := by decide
theorem test_decode_load8 : decode Params.suggested 0x00000102 = .ok (.load8 false 1) := by decide
theorem test_decode_load16 : decode Params.suggested 0x00000303 = .ok (.load16 false 3) := by decide
theorem test_decode_load32 : decode Params.suggested 0x00000204 = .ok (.load32 false 2) := by decide
theorem test_decode_load64 : decode Params.suggested 0x00000245 = .ok (.load64 true 2) := by decide
theorem test_decode_load128 : decode Params.suggested 0x00000306 = .ok (.load128 false 3) := by decide
theorem test_decode_copy : decode Params.suggested 0x00001207 = .ok (.copy false 2 1) := by decide
theorem test_decode_copy_m : decode Params.suggested 0x00000147 = .ok (.copy true 1 0) := by decide
theorem test_decode_free : decode Params.suggested 0x00000108 = .ok (.free 1) := by decide
theorem test_decode_get : decode Params.suggested 0x00000110 = .ok (.get 1) := by decide
theorem test_decode_set : decode Params.suggested 0x00000211 = .ok (.set 2) := by decide
theorem test_decode_slice : decode Params.suggested 0x00000312 = .ok (.slice 3) := by decide
theorem test_decode_count : decode Params.suggested 0x00000313 = .ok (.count 3) := by decide
theorem test_decode_nbytes : decode Params.suggested 0x00000114 = .ok (.nbytes 1) := by decide
theorem test_decode_export : decode Params.suggested 0x00000115 = .ok (.exportAll 1) := by decide
theorem test_decode_exportl : decode Params.suggested 0x00000316 = .ok (.exportLogical 3) := by decide
theorem test_decode_eq : decode Params.suggested 0x00003217 = .ok (.eq 2 3) := by decide
theorem test_decode_padd : decode Params.suggested 0x00000020 = .ok .padd := by decide
theorem test_decode_paddb : decode Params.suggested 0x00000021 = .ok .paddb := by decide
theorem test_decode_padd8 : decode Params.suggested 0x00000022 = .ok .padd8 := by decide
theorem test_decode_padd16 : decode Params.suggested 0x00000023 = .ok .padd16 := by decide
theorem test_decode_pbuild : decode Params.suggested 0x00000164 = .ok (.pbuild true 1) := by decide
theorem test_decode_pclear : decode Params.suggested 0x00000025 = .ok .pclear := by decide

theorem test_decode_reserved_op : decode Params.suggested 0x0000000F = .error .reservedOp := by decide
theorem test_decode_reserved_bit : decode Params.suggested 0x00000080 = .error .nonzeroFixedBit := by decide
theorem test_decode_high_bit : decode Params.suggested 0x00010000 = .error .nonzeroFixedBit := by decide
theorem test_decode_unused_m : decode Params.suggested 0x00000050 = .error .nonzeroFixedBit := by decide
theorem test_decode_unused_sa : decode Params.suggested 0x00000100 = .error .nonzeroFixedBit := by decide
theorem test_decode_unused_sb : decode Params.suggested 0x00001010 = .error .nonzeroFixedBit := by decide
theorem test_decode_slot_a : decode Params.suggested 0x00000410 = .error .noSlotA := by decide
theorem test_decode_slot_b : decode Params.suggested 0x00005017 = .error .noSlotB := by decide
theorem test_decodeTableWord : decodeTableWord 32 0x3007 = some (.copy false 0 3) := by decide

/-! ### One step of each command -/

theorem test_nop_clears_err :
    after State.err (exec .nop { State.reset with err := .indexOutOfRange }) = some .ok := by decide

/-- R131: DATA = `34 12`, OPA = 2. -/
theorem test_loadb : after (·.slot 0)
      (exec (.loadb false 0) { State.reset with opa := 2, data := [(0, 0x34), (1, 0x12)] }) =
    some { valid := true, mutable := false, n := 2, buf := [0x34, 0x12, 0, 0, 0, 0, 0, 0] } := by decide

/-- OPA = 65, one more than `MAX_BYTES`. -/
theorem test_loadb_capacity :
    after State.err (exec (.loadb false 0) { State.reset with opa := 65 }) = some .capacity := by decide

theorem test_load8 : after (·.slot 1) (exec (.load8 false 1) { State.reset with val0 := 0x000001A5 }) =
    some { valid := true, mutable := false, n := 1, buf := [0xA5, 0, 0, 0, 0, 0, 0, 0] } := by decide

theorem test_load16 : after (·.slot 0) (exec (.load16 false 0) { State.reset with val0 := 0x0000FFFE }) =
    some { valid := true, mutable := false, n := 2, buf := [0xFE, 0xFF, 0, 0, 0, 0, 0, 0] } := by decide

theorem test_load32 : after (·.slot 2) (exec (.load32 false 2) { State.reset with val0 := 0xDEADBEEF }) =
    some { valid := true, mutable := false, n := 4, buf := [0xEF, 0xBE, 0xAD, 0xDE, 0, 0, 0, 0] } := by
  decide

theorem test_load64 : after (fun t => (t.slot 0).buf)
      (exec (.load64 false 0) { State.reset with val1 := 0x01020304, val0 := 0x05060708 }) =
    some [0x08, 0x07, 0x06, 0x05, 0x04, 0x03, 0x02, 0x01] := by decide

theorem test_load128 : after (fun t => (t.slot 3).buf)
      (exec (.load128 false 3) { State.reset with
        val3 := 0x0F0E0D0C, val2 := 0x0B0A0908, val1 := 0x07060504, val0 := 0x03020100 }) =
    some [0x00, 0x01, 0x02, 0x03, 0x04, 0x05, 0x06, 0x07, 0x08, 0x09, 0x0A, 0x0B, 0x0C, 0x0D, 0x0E,
      0x0F] := by decide

/-- R137: a mutable source, a read-only copy. -/
theorem test_copy : after (·.slot 1) (exec (.copy false 1 0) (store (builtSlot [0x34, 0x12] true) 0 0)) =
    some { valid := true, mutable := false, n := 2, buf := [0x34, 0x12, 0, 0, 0, 0, 0, 0] } := by decide

theorem test_copy_no_store : after State.err (exec (.copy false 0 3) State.reset) = some .noStore := by decide

theorem test_free : after (·.slot 0) (exec (.free 0) (store (builtSlot [0x81] true) 0 0)) =
    some { valid := false, mutable := false, n := 0, buf := [] } := by decide

/-- R171: the store `01 80`, its top bit. -/
theorem test_get_top : after State.result (exec (.get 0) (store (builtSlot [0x01, 0x80] false) 15 0)) =
    some 1 := by decide

/-- R171: one past the top bit, though the padded buffer holds a byte there. -/
theorem test_get_padding : after State.err (exec (.get 0) (store (builtSlot [0x01, 0x80] false) 16 0)) =
    some .indexOutOfRange := by decide

/-- OPB = 0xFFFFFFFE: bit 0 is 0, so byte 8 goes from `18` to `08`. -/
theorem test_set_clears : after (fun t => (t.slot 0).byte 8)
      (exec (.set 0) (store (builtSlot [0x10, 0x11, 0x12, 0x13, 0x14, 0x15, 0x16, 0x17, 0x18] true)
        68 0xFFFFFFFE)) = some 0x08 := by decide

/-- R280: the mode is checked before the index. -/
theorem test_set_mode : after State.err (exec (.set 0) (store (builtSlot [0x01, 0x80] false) 99 0)) =
    some .modeViolation := by decide

/-- The 9-byte store, start 60, length 8: window start 1, offset 52. -/
theorem test_slice_clamped : after State.result
      (exec (.slice 0) (store (builtSlot [0x10, 0x11, 0x12, 0x13, 0x14, 0x15, 0x16, 0x17, 0x18] false)
        60 8)) = some 0x81 := by decide

/-- The same store, start 66, length 7: one bit past the window. -/
theorem test_slice_overrun : after State.err
      (exec (.slice 0) (store (builtSlot [0x10, 0x11, 0x12, 0x13, 0x14, 0x15, 0x16, 0x17, 0x18] false)
        66 7)) = some .windowOverrun := by decide

theorem test_count : after State.result (exec (.count 0) (store (builtSlot [0x34, 0x12] false) 0 0)) =
    some 16 := by decide

theorem test_nbytes : after State.result (exec (.nbytes 0) (store (builtSlot [0x34, 0x12] false) 0 0)) =
    some 2 := by decide

/-- DATA held `EE` in bytes 0, 7 and 8; EXPORT of `AB` writes bytes 0 to 7. -/
theorem test_export : after (fun t => (t.result, t.data))
      (exec (.exportAll 0) { store (builtSlot [0xAB] false) 0 0 with
        data := [(0, 0xEE), (7, 0xEE), (8, 0xEE)] }) = some (8, [(0, 0xAB), (8, 0xEE)]) := by decide

/-- The same, and EXPORTL writes byte 0 only. -/
theorem test_exportl : after (fun t => (t.result, t.data))
      (exec (.exportLogical 0) { store (builtSlot [0xAB] false) 0 0 with
        data := [(0, 0xEE), (7, 0xEE)] }) = some (1, [(0, 0xAB), (7, 0xEE)]) := by decide

/-- `01` against `01 00`: different byte counts. -/
theorem test_eq_lengths : after State.result
      (exec (.eq 0 1) { withSlots (builtSlot [0x01] false) (builtSlot [0x01, 0x00] false) .empty .empty with
        result := 7 }) = some 0 := by decide

/-- R280: a mutable receiver is found before the empty comparand. -/
theorem test_eq_mode : after State.err (exec (.eq 0 1) (store (builtSlot [0x01] true) 0 0)) =
    some .modeViolation := by decide

/-- VAL0 = 0xFF, OPA = 0x0F: width 4. -/
theorem test_padd : after (fun t => (t.result, t.result2, t.pk.totalBits))
      (exec .padd { State.reset with val0 := 0xFF, opa := 0x0F }) = some (0, 3, 4) := by decide

/-- R221: a field of width 0 at position 0. -/
theorem test_padd_empty_field : after (fun t => (t.result, t.result2, t.pk.fields.length))
      (exec .padd { State.reset with val0 := 0x1234 }) = some (0, 0xFFFFFFFF, 1) := by decide

/-- OPA = 2: bit 0 is 0, so the field is `false`. -/
theorem test_paddb : after (·.pk)
      (exec .paddb { State.reset with opa := 2 }) =
    some { fields := [⟨0, 1, 1⟩], totalBits := 1, spent := false } := by decide

/-- W7: after one PADDB, the byte field takes bits 1 to 8. -/
theorem test_padd8 : after (fun t => (t.result, t.result2, t.pk.totalBits))
      (exec .padd8 { State.reset with
        val0 := 0xFF, pk := { fields := [⟨1, 1, 1⟩], totalBits := 1, spent := false } }) =
    some (1, 8, 9) := by decide

/-- VAL0 = 0x1FFFE: only bits [15:0] are taken. -/
theorem test_padd16 : after (·.pk.fields) (exec .padd16 { State.reset with val0 := 0x0001FFFE }) =
    some [⟨0xFFFE, 0xFFFF, 16⟩] := by decide

/-- W7's packer. -/
def w7 : State := { State.reset with
  pk := { fields := [⟨1, 0x1, 1⟩, ⟨0xFF, 0xFF, 8⟩, ⟨0xAAAA, 0xFFFF, 16⟩], totalBits := 25, spent := false } }

/-- W7: PBUILD of `true`, `0xFF`, `0xAAAA`. -/
theorem test_pbuild : after (fun t => (t.slot 0, t.result, t.result2, t.pk.spent)) (exec (.pbuild false 0) w7) =
    some ({ valid := true, mutable := false, n := 4, buf := [0xFF, 0x55, 0x55, 0x01, 0, 0, 0, 0] },
      4, 25, true) := by decide

theorem test_pbuild_empty : after (fun t => (t.err, t.pk.spent)) (exec (.pbuild false 3) State.reset) =
    some (.invalidArgument, false) := by decide

theorem test_pclear : after (·.pk) (exec .pclear { w7 with pk := { w7.pk with spent := true } }) =
    some { fields := [], totalBits := 0, spent := false } := by decide

theorem test_accumulator : packAccumulator w7.pk.fields = [0xFF, 0x55, 0x55, 0x01] := by decide

/-! ### Steps: bus accesses, a command word, reset -/

/-- A command word as the first input after reset. -/
theorem test_step_command : after (fun t => ((t.slot 2).n, t.replies, t.port))
    (step (State.reset.withFetchWord 32 0x204)) = some (4, [.written], []) := by decide

/-- An illegal word as the first input after reset. -/
theorem test_step_illegal : after (fun t => (t.err, t.slots))
    (step (State.reset.withFetchWord 32 0x80)) = some (.illegalCommand, State.reset.slots) := by decide

/-- `wrb DATA+5, 0xAA`, then DATA+4 as a word. -/
theorem test_step_byte_write : after (·.busRead 0x104 32)
    (step (pending [.access ⟨0x105, 8, .write 0xAA⟩])) = some (.readWord 0x0000AA00) := by decide

/-- `wrw DATA+0, 0x04030201`, then DATA+2 as a byte. -/
theorem test_step_word_write : after (·.busRead 0x102 8)
    (step (pending [.access ⟨0x100, 32, .write 0x04030201⟩])) = some (.readByte 0x03) := by decide

theorem test_read_param0 : after State.replies (step (pending [.access ⟨0x034, 32, .read⟩])) =
    some [.readWord 0x00400004] := by decide

theorem test_read_id : after State.replies (step (pending [.access ⟨0x030, 32, .read⟩])) =
    some [.readWord 0x42430007] := by decide

/-- A 16-bit access to OPA. -/
theorem test_unsupported : after (fun t => (t.replies, t.opa))
    (step (pending [.access ⟨0x008, 16, .write 1⟩])) = some ([.error], 0) := by decide

/-- P2: ERR 0 and PSPENT. -/
theorem test_status_spent : State.status { w7 with pk := { w7.pk with spent := true } } = 0x00000100 := by decide

/-- R270's numbers in STATUS.ERR, code by code. -/
theorem test_error_numbers : ∀ e ∈ errorNumbers,
    (State.status { State.reset with err := e.1 }).toNat = e.2 := by decide

theorem test_step_reset : after (fun t => (t.opa, t.pk, t.data))
    (step { w7 with opa := 5, data := [(3, 1)], port := [.reset] }) = some (0, Packer.empty, []) := by decide

/-! ### Script lines (30_encoding.md R109, R110) -/

theorem test_script_command : parseLine "EQ s2, s3   ; s3 is read-only" = some [.command (.eq 2 3)] := by decide

theorem test_script_variant : parseLine "LOADB.m s1" = some [.command (.loadb true 1)] := by decide

theorem test_script_no_variant : parseLine "GET.m s1" = none := by decide

/-- Log 15: a slot operand the format does not use, and a spelling other than `s0` to `s15`. -/
theorem test_script_slots : parseLine "GET s1, s2" = none ∧ parseLine "NOP s1" = none ∧
    parseLine "GET s007" = none ∧ parseLine "GET s15" = some [.command (.get 15)] := by decide

theorem test_script_negative : parseLine "wr OPA, -1" = some [.wr .opa 0xFFFFFFFF] := by decide

theorem test_script_slice : parseLine "slice s1, 16, 32" =
    some [.wr .opa 16, .wr .opb 32, .command (.slice 1), .rd .result] := by decide

theorem test_script_loadb : parseLine "loadb s0, 0x34, 0x12" =
    some [.wrb 0 0x34, .wrb 1 0x12, .wr .opa 2, .command (.loadb false 0)] := by decide

/-! ### States that meet the hypotheses of the statements, each clause at the ends of its range -/

/-- A state with a read-only, a mutable, a long read-only and an empty slot, and W7's packer. -/
def full : State := { w7 with
  slots := [builtSlot [0x01, 0x80] false, builtSlot [0x34, 0x12] true,
    builtSlot [0x00, 0x01, 0x02, 0x03, 0x04, 0x05, 0x06, 0x07, 0x08, 0x09] false, .empty] }

/-- The largest parameters, with the window not at 0. -/
def largest : Params := { numSlots := 16, maxBytes := 268435452, maxFields := 65535, base := 0x4000 }

/-- The smallest parameters. -/
def smallest : Params := { numSlots := 1, maxBytes := 16, maxFields := 1, base := 0 }

theorem witness_Inv : full.Inv ∧ State.reset.Inv := by
  and_intros <;> decide

theorem witness_ResetMeetsInvariant : largest.wf ∧ smallest.wf ∧ Params.suggested.wf := by decide

theorem witness_DecodeOfEncode :
    (Instr.copy true 15 15).wellFormed largest ∧ (Instr.copy false 0 0).wellFormed smallest := by decide

theorem witness_EncodeOfDecode : decode largest 0x0000FF47 = .ok (.copy true 15 15) := by decide

theorem witness_IllegalWordRaises :
    (pending [.access ⟨0x000, 32, .write 0x09⟩]).port =
      [.access { addr := State.reset.params.base + 0x000, bits := 32, dir := .write 0x09 }] ∧
    (IllegalWord 4 0x09 ∧ IllegalWord 4 0x0F ∧ IllegalWord 4 0x18 ∧ IllegalWord 4 0x1F ∧
      IllegalWord 4 0x26 ∧ IllegalWord 4 0x3F) ∧
    (IllegalWord 4 0x80 ∧ IllegalWord 4 0x10000 ∧ IllegalWord 4 0x80000000) ∧
    (IllegalWord 4 0x40 ∧ IllegalWord 4 0x50 ∧ IllegalWord 4 0x57) ∧
    (IllegalWord 4 0x100 ∧ IllegalWord 4 0x1000 ∧ IllegalWord 4 0x1010 ∧ IllegalWord 4 0x4001) ∧
    (IllegalWord 4 0x410 ∧ IllegalWord 4 0xF10 ∧ IllegalWord 4 0x4017 ∧ IllegalWord 4 0xF017) ∧
    decode Params.suggested 0x00000000 = .ok .nop := by
  and_intros <;> decide

theorem witness_StepRunsDecodedCommand :
    (State.reset.withFetchWord 32 0x204).port =
      [.access { addr := State.reset.params.base + 0x000, bits := 32, dir := .write 0x204 }] ∧
    decode State.reset.params 0x204 = .ok (.load32 false 2) := by decide

theorem witness_ScriptCommandRuns :
    (pending [.access ((ScriptLine.command (.eq 2 3)).access Params.suggested)]).port =
      [.access ((ScriptLine.command (.eq 2 3)).access State.reset.params)] ∧
    (Instr.eq 2 3).wellFormed State.reset.params := by decide

theorem witness_StepKeepsInvariant : (full.withFetchWord 32 0x164).Inv ∧
    (after (·.pk.spent) (step (full.withFetchWord 32 0x164))) = some true := by decide

theorem witness_ResetGivesResetValues :
    full.params.wf ∧ { full with port := [.reset] }.port = [.reset] := by decide

theorem witness_ReadsHaveNoEffect :
    (pending [.access ⟨0x034, 32, .read⟩, .access ⟨0x034, 32, .read⟩]).port =
      [.access ⟨0x034, 32, .read⟩, .access ⟨0x034, 32, .read⟩] := rfl

/-- The last register byte; a misaligned word at each end of DATA; a word and a half-word at the end of DATA. -/
theorem witness_UnsupportedAccessRefused :
    Unsupported 64 0x001 32 ∧ Unsupported 64 0x0FF 8 ∧ Unsupported 64 0x000 16 ∧ Unsupported 64 0x101 32 ∧
      Unsupported 64 0x13D 32 ∧ Unsupported 64 0x13F 32 ∧ Unsupported 64 0x13E 16 ∧
    ¬Unsupported 64 0x0FC 32 ∧ ¬Unsupported 64 0x100 32 ∧ ¬Unsupported 64 0x13F 8 ∧ ¬Unsupported 64 0x13C 32 ∧
    (0x13F : Nat) < State.reset.params.base + (0x100 + State.reset.params.maxBytes) := by
  and_intros <;> decide

/-- The byte below the window of a block at 0x4000, and the first byte past it. -/
theorem witness_OutsideWindowIgnored :
    (0x3FFF < largest.base) ∧ largest.base + (0x100 + largest.maxBytes) ≤ 0x10003FFC + 0x100 ∧
    (pending [.access ⟨0x140, 8, .read⟩]).port = [.access ⟨0x140, 8, .read⟩] ∧
    State.reset.params.base + (0x100 + State.reset.params.maxBytes) ≤ 0x140 := by decide

theorem witness_OperandRegistersReadBack : Reg.val3 ∈ [Reg.opa, .opb, .val0, .val1, .val2, .val3] ∧
    (pending [.access ⟨0x01C, 32, .write 0xFFFFFFFF⟩, .access ⟨0x01C, 32, .read⟩]).port =
      [.access ⟨State.reset.params.base + Reg.val3.offset, 32, .write 0xFFFFFFFF⟩,
        .access ⟨State.reset.params.base + Reg.val3.offset, 32, .read⟩] := by decide

theorem witness_ReadOnlyAndReservedOffsets :
    (pending [.access ⟨0x0FC, 32, .write 5⟩]).port =
      [.access ⟨State.reset.params.base + 0x0FC, 32, .write 5⟩] ∧
    ((0x03C : Nat) ≤ 0x0FC ∧ (0x0FC : Nat) < 0x100 ∧ (0x0FC : Nat) % 4 = 0 ∧ (0x03C : Nat) % 4 = 0) ∧
    (pending [.access ⟨0x000, 32, .read⟩]).port = [.access ⟨State.reset.params.base + 0x000, 32, .read⟩] := by decide

theorem witness_DataByteWrite : (pending [.access ⟨0x13F, 8, .write 0xAA⟩]).Inv ∧
    63 < State.reset.params.maxBytes ∧ 0 < State.reset.params.maxBytes ∧
    (pending [.access ⟨0x13F, 8, .write 0xAA⟩]).port =
      [.access ⟨State.reset.params.base + 0x100 + 63, 8, .write 0xAA⟩] := by decide

theorem witness_DataWordLittleEndian : (pending [.access ⟨0x13C, 32, .write 0x04030201⟩]).Inv ∧
    60 % 4 = 0 ∧ 60 + 4 ≤ State.reset.params.maxBytes ∧ 0 + 4 ≤ State.reset.params.maxBytes ∧
    (pending [.access ⟨0x13C, 32, .write 0x04030201⟩]).port =
      [.access ⟨State.reset.params.base + 0x100 + 60, 32, .write 0x04030201⟩] := by decide

theorem witness_StatusRegisterFields : (pending [.access ⟨0x004, 32, .read⟩]).port =
    [.access ⟨State.reset.params.base + 0x004, 32, .read⟩] := by decide

theorem witness_ConstantAndLiveRegisters : (pending [.access ⟨0x038, 32, .write 5⟩]).Inv ∧
    (pending [.access ⟨0x038, 32, .write 5⟩]).port =
      [.access ⟨State.reset.params.base + 0x038, 32, .write 5⟩] := by decide

theorem witness_StatusReadSeesCommand :
    (pending [.access ⟨0x000, 32, .write 0x13⟩, .access ⟨0x004, 32, .read⟩]).port =
      [.access ⟨State.reset.params.base + 0x000, 32, .write 0x13⟩,
        .access ⟨State.reset.params.base + 0x004, 32, .read⟩] := by decide

theorem witness_ErrorChangesOnlyErr :
    after (fun t => t.err ≠ .ok) (exec (.count 3) full) = some (ErrCode.noStore ≠ .ok) := rfl

/-- One command for each cause; each error is one the cause names. -/
theorem witness_InvalidArgumentCauses : full.Inv ∧ (Instr.loadb true 3).wellFormed full.params ∧
    full.opa.toNat = 0 ∧ State.reset.Inv ∧ (Instr.pbuild true 3).wellFormed State.reset.params ∧
    State.reset.pk.spent = false ∧ State.reset.pk.totalBits = 0 := by
  and_intros <;> decide

theorem witness_IndexOutOfRangeCauses : { full with opa := 16 }.Inv ∧
    ((full.slot 0).valid = true ∧ OutsideStore (full.slot 0) (BitVec.toInt 16#32) ∧
      ¬OutsideStore (full.slot 0) (BitVec.toInt 15#32) ∧
      OutsideStore (full.slot 0) (BitVec.toInt 0xFFFFFFFF#32)) ∧
    ((full.slot 1).mutable = true ∧ OutsideStore (full.slot 1) (BitVec.toInt 16#32)) ∧
    ((BitVec.toInt 0#32) < 1 ∧ 32 < BitVec.toInt 33#32) := by decide

theorem witness_NoStoreCauses : full.Inv ∧ (Instr.eq 0 3).wellFormed full.params ∧
    (Instr.count 3).receiver = some 3 ∧ (full.slot 3).valid = false ∧
    (full.slot 0).valid = true ∧ (full.slot 0).mutable = false := by decide

theorem witness_ModeViolationCauses : full.Inv ∧ (Instr.eq 0 1).wellFormed full.params ∧
    ((full.slot 0).valid = true ∧ (full.slot 0).mutable = false) ∧
    ((full.slot 1).valid = true ∧ (full.slot 1).mutable = true) := by decide

/-- A block of one field and 16 bytes whose packer is full, and one whose packer holds 160 bits. -/
def tight : State := { State.resetWith smallest with
  pk := { fields := [⟨1, 1, 1⟩], totalBits := 1, spent := false }, opa := 17 }

/-- The packer of 95_test_vectors.md 2.8 with 160 bits, in a block of 16 bytes. -/
def overfull : State := { State.resetWith { smallest with maxFields := 64 } with
  pk := { fields := List.replicate 5 ⟨0, 0xFFFFFFFF, 32⟩, totalBits := 160, spent := false } }

theorem witness_CapacityCauses : tight.Inv ∧ tight.params.maxBytes < tight.opa.toNat ∧
    (Instr.padd.isAdd = true ∧ tight.pk.spent = false ∧ tight.pk.fields.length = tight.params.maxFields) ∧
    overfull.Inv ∧ overfull.pk.spent = false ∧
    overfull.params.maxBytes < (overfull.pk.totalBits + 7) / 8 := by
  and_intros <;> decide

/-- `full` with its packer spent. -/
def spent : State := { full with pk := { full.pk with spent := true } }

theorem witness_PackerSpentCauses : spent.Inv ∧ Instr.padd16.isAdd = true ∧ spent.pk.spent = true ∧
    (Instr.pbuild true 3).wellFormed spent.params := by decide

/-- The 10-byte store: bit 76 for 5 bits ends one past the window; bit 76 for 4 ends with it. -/
theorem witness_WindowOverrunCauses : { full with opa := 76, opb := 5 }.Inv ∧
    (Instr.slice 2).wellFormed full.params ∧ (full.slot 2).valid = true ∧
    ¬OutsideStore (full.slot 2) (BitVec.toInt 76#32) ∧
    (64 : Int) < BitVec.toInt 76#32 - 8 * min (BitVec.toInt 76#32 / 8) (max 8 (full.slot 2).n - 8 : Nat) + 5 ∧
    ¬(64 : Int) < BitVec.toInt 76#32 - 8 * min (BitVec.toInt 76#32 / 8) (max 8 (full.slot 2).n - 8 : Nat) + 4 := by decide

theorem witness_CommandsWriteOnlyTheirRegisters : (Instr.set 0).writesResult = false ∧
    (Instr.get 0).writesResult2 = false ∧ (Instr.loadb false 0).writesData = false := by decide

theorem witness_CommandsWriteOnlyTheirSlot : (Instr.copy true 1 0).writesSlot = some 1 ∧
    (1 : SlotNum).toNat ≠ 0 := by decide

theorem witness_PackerAndSlotsApart : (Instr.set 0).writesPacker = false ∧ Instr.padd8.isAdd = true := by decide

theorem witness_ReadOnlySlotStays : full.slots[0]? = some (builtSlot [0x01, 0x80] false) ∧
    (builtSlot [0x01, 0x80] false).valid = true ∧ (builtSlot [0x01, 0x80] false).mutable = false ∧
    (Instr.set 0).writesSlot = some 0 ∧ (Instr.free 1).writesSlot = some 1 ∧ (Instr.get 0).writesSlot = none := by decide

/-- 0, 1, 64 and 65 bytes, and a slot that exists. -/
theorem witness_LoadbBuildsFromData : { full with opa := 64 }.Inv ∧ (3 : SlotNum).toNat < full.params.numSlots ∧
    full.opa.toNat = 0 ∧ ¬full.params.maxBytes < BitVec.toNat 64#32 ∧
    full.params.maxBytes < BitVec.toNat 65#32 := by decide

theorem witness_LoadScalarBuilds : full.Inv ∧ (3 : SlotNum).toNat < full.params.numSlots := by decide

theorem witness_CopyIsDeep : full.Inv ∧ (3 : SlotNum).toNat < full.params.numSlots ∧
    (0 : SlotNum).toNat < full.params.numSlots ∧ (full.slot 3).valid = false ∧
    (full.slot 0).valid = true := by decide

theorem witness_FreeEmptiesSlot : (3 : SlotNum).toNat < full.slots.length := by decide

/-- An empty slot; bits -1, 0, 15 and 16 of a store of two bytes. -/
theorem witness_GetReadsBit : full.Inv ∧ (3 : SlotNum).toNat < full.params.numSlots ∧
    (full.slot 3).valid = false ∧ (full.slot 0).valid = true ∧
    OutsideStore (full.slot 0) (-1) ∧ ¬OutsideStore (full.slot 0) 0 ∧ ¬OutsideStore (full.slot 0) 15 ∧
    OutsideStore (full.slot 0) 16 := by decide

theorem witness_SetWritesOneBit : full.Inv ∧ (full.slot 3).valid = false ∧
    ((full.slot 0).valid = true ∧ (full.slot 0).mutable = false) ∧
    ((full.slot 1).valid = true ∧ (full.slot 1).mutable = true ∧ OutsideStore (full.slot 1) (-1) ∧
      ¬OutsideStore (full.slot 1) 0 ∧ ¬OutsideStore (full.slot 1) 15 ∧ OutsideStore (full.slot 1) 16) := by decide

/-- Region (a) up to the last bit of the two-byte store, (b) from one past it up to bit 63, (c) from one past
the window, and (c) of the long store one past its last bit. -/
theorem witness_SliceThreeRegions : { full with opa := 15, opb := 1 }.Inv ∧ (full.slot 0).valid = true ∧
    BitVec.toInt 15#32 = (15 : Nat) ∧ BitVec.toInt 32#32 = (32 : Nat) ∧ 15 < 8 * (full.slot 0).n ∧
    15 + 1 ≤ 8 * (full.slot 0).n ∧
    (¬15 + 2 ≤ 8 * (full.slot 0).n ∧ (full.slot 0).n < 8 ∧ 15 + 32 ≤ 64) ∧
    ((full.slot 2).valid = true ∧ 79 < 8 * (full.slot 2).n ∧ ¬79 + 2 ≤ 8 * (full.slot 2).n ∧
      ¬(full.slot 2).n < 8) := by decide

/-- A store of five bytes. -/
def five : State := withSlots (builtSlot [0xEF, 0xBE, 0xAD, 0xDE, 0x03] false) .empty .empty .empty

/-- Where regions (b) and (c) meet: bit 39 of the five bytes, the last one, for 25 bits (E = 64) and for 26
(E = 65). -/
theorem witness_SliceThreeRegions_window_end : { five with opa := 39, opb := 25 }.Inv ∧
    (five.slot 0).valid = true ∧ BitVec.toInt 39#32 = (39 : Nat) ∧ BitVec.toInt 25#32 = (25 : Nat) ∧
    BitVec.toInt 26#32 = (26 : Nat) ∧ 39 < 8 * (five.slot 0).n ∧
    (¬39 + 25 ≤ 8 * (five.slot 0).n ∧ (five.slot 0).n < 8 ∧ 39 + 25 ≤ 64) ∧
    (¬39 + 26 ≤ 8 * (five.slot 0).n ∧ ¬39 + 26 ≤ 64) := by decide

theorem witness_SliceOfOneBitIsGet : { full with opb := 1 }.opb = 1 := rfl

/-- W6's stores with p and q and r in slots 0, 1, 2. -/
def joined : State := withSlots (builtSlot [0x00, 0x01, 0x02, 0x03, 0x04, 0x05, 0x06, 0x07] false)
  (builtSlot [0x00, 0x01, 0x02, 0x03, 0x04, 0x05, 0x06, 0x07, 0x08, 0x09] false)
  (builtSlot [0x08, 0x09] false) .empty

/-- Slices that end with the last bit of p and of r, of 32 bits and of 1. -/
theorem witness_SliceBoundaryIndependence : joined.Inv ∧ (2 : SlotNum).toNat < joined.params.numSlots ∧
    (joined.slot 0).valid = true ∧ (joined.slot 1).valid = true ∧ (joined.slot 2).valid = true ∧
    (joined.slot 1).bytes 0 (joined.slot 1).n = (joined.slot 0).bytes 0 (joined.slot 0).n ++ [0x08, 0x09] ∧
    (joined.slot 1).bytes 0 (joined.slot 1).n =
      [0x00, 0x01, 0x02, 0x03, 0x04, 0x05, 0x06, 0x07] ++ (joined.slot 2).bytes 0 (joined.slot 2).n ∧
    32 + 32 ≤ 8 * (joined.slot 0).n ∧ 15 + 1 ≤ 8 * (joined.slot 2).n := by decide

theorem witness_SizeQueries : full.Inv ∧ (3 : SlotNum).toNat < full.params.numSlots ∧
    (full.slot 3).valid = false ∧ (full.slot 2).valid = true := by decide

theorem witness_ExportsWriteData : full.Inv ∧ (2 : SlotNum).toNat < full.params.numSlots ∧
    (full.slot 3).valid = false ∧ (full.slot 0).valid = true := by decide

theorem witness_FreeAllAndPclearRestore : spent.Inv ∧ (State.resetWith largest).params = largest := by decide

theorem witness_LoadbExportlRoundTrip : { full with opa := 64 }.Inv ∧ { full with opa := 1 }.Inv ∧
    1 ≤ BitVec.toNat 1#32 ∧ BitVec.toNat 64#32 ≤ full.params.maxBytes ∧
    Memory.wf [(0, 0xEE), (1, 0xEE), (63, 0xEE)] := by
  and_intros <;> decide

/-- Each branch: an empty and a mutable receiver, an empty and a mutable comparand, and two read-only stores. -/
theorem witness_EqComparesLogicalBytes : full.Inv ∧ (3 : SlotNum).toNat < full.params.numSlots ∧
    (full.slot 3).valid = false ∧ (full.slot 1).mutable = true ∧
    ((full.slot 0).valid = true ∧ (full.slot 0).mutable = false) ∧
    ((full.slot 2).valid = true ∧ (full.slot 2).mutable = false) := by decide

theorem witness_AddsAppendField : full.Inv ∧ full.pk.spent = false ∧
    full.pk.fields.length < full.params.maxFields := by decide

theorem witness_AddsRefused : Instr.paddb.isAdd = true ∧ spent.pk.spent = true ∧
    tight.pk.spent = false ∧ tight.pk.fields.length = tight.params.maxFields := by decide

theorem witness_PbuildPacksFields : full.Inv ∧ (3 : SlotNum).toNat < full.params.numSlots ∧
    full.pk.spent = false ∧ 0 < full.pk.totalBits ∧
    (full.pk.totalBits + 7) / 8 ≤ full.params.maxBytes ∧
    full.pk.fields = [⟨1, 0x1, 1⟩] ++ ⟨0xFF, 0xFF, 8⟩ :: [⟨0xAAAA, 0xFFFF, 16⟩] := by decide

theorem witness_AccumulatorMatchesPack : ∀ f ∈ full.pk.fields, f.width ≤ 32 := by decide

theorem witness_FieldRecovery : full.Inv ∧ full.pk.spent = false ∧
    (full.pk.totalBits + 7) / 8 ≤ full.params.maxBytes ∧
    full.pk.fields = [⟨1, 0x1, 1⟩, ⟨0xFF, 0xFF, 8⟩] ++ ⟨0xAAAA, 0xFFFF, 16⟩ :: [] ∧
    full.pk.fields = [] ++ ⟨1, 0x1, 1⟩ :: [⟨0xFF, 0xFF, 8⟩, ⟨0xAAAA, 0xFFFF, 16⟩] := by decide

end Sys2Proof.Tests
end

section
/-! The invariant of the block and what every step keeps (10_state.md R33 to R35, R39, R40). -/

namespace Sys2Proof.Machine

/-! ### What a command does, ended -/

/-- The state before a command is one it may end in. -/
theorem Effect.refl (i : Instr) (s : State) : Effect i s s :=
  ⟨⟨rfl, rfl, rfl, rfl, rfl, rfl, rfl, rfl, rfl⟩, fun _ => rfl, fun _ => rfl, .inl rfl, .inl rfl, .inl rfl⟩

/-- `Effect` does not speak of STATUS.ERR. -/
theorem Effect.withErr {i : Instr} {s t : State} (h : Effect i s t) (e : ErrCode) :
    Effect i s { t with err := e } :=
  ⟨h.operands, h.result, h.result2, h.data, h.packer, h.slots⟩

/-- Every command ends in a next state that differs from the one before by its effect at most, whether it
raises an error or completes. -/
theorem exec_effect (i : Instr) (s : State) : ∃ t, exec i s = .next t ∧ Effect i s t := by
  obtain ⟨e, -, -, h⟩ | ⟨t, h, ht⟩ := exec_cases i s
  · exact ⟨_, h, (Effect.refl i s).withErr e⟩
  · exact ⟨_, h, ht.withErr .ok⟩

/-! ### The parts of the invariant -/

/-- The invariant speaks of the parameters, the slots, the packer and DATA only. -/
theorem State.Inv.congr {s t : State} (hs : s.Inv) (hparams : t.params = s.params) (hslots : t.slots = s.slots)
    (hpk : t.pk = s.pk) (hdata : t.data = s.data) : t.Inv := by
  rw [State.Inv, hparams, hslots, hpk, hdata]
  exact hs

theorem Slot.empty_wf (maxBytes : Nat) : Slot.empty.wf maxBytes :=
  ⟨fun h => by simp at h, fun _ => rfl⟩

theorem Packer.empty_wf (maxFields : Nat) : Packer.empty.wf maxFields :=
  ⟨Nat.zero_le _, fun f hf => by simp at hf, rfl⟩

/-- A byte stored over a logical byte keeps a valid slot well formed: the padding is out of its reach
(10_state.md R34). -/
theorem Slot.wf_set_byte {x : Slot} {maxBytes j : Nat} (hx : x.wf maxBytes) (hv : x.valid = true) (hj : j < x.n)
    (b : Byte) : Slot.wf maxBytes { x with buf := x.buf.set j b } := by
  obtain ⟨hpos, hmax, hlen, hpad⟩ := hx.1 hv
  refine ⟨fun _ => ⟨hpos, hmax, by simpa [Slot.bufLen] using hlen, fun k hk hnk => ?_⟩,
    fun h => by simp [hv] at h⟩
  have hne : j ≠ k := by have : x.n ≤ k := hnk; omega
  have hbyte : x.byte k = 0x00 := hpad k hk hnk
  simpa [Slot.byte, List.getD_eq_getElem?_getD, List.getElem?_set_ne hne] using hbyte

/-- What a command makes of the slot it writes is well formed. -/
theorem SlotEffect.wf {i : Instr} {s : State} {sa : SlotNum} {x : Slot} (h : SlotEffect i s sa x) (hs : s.Inv) :
    x.wf s.params.maxBytes := by
  cases h with
  | built m bs h0 h1 => exact builtSlot_wf m h0 h1
  | freed => exact Slot.empty_wf _
  | bitSet hi hv hm hin =>
    refine Slot.wf_set_byte (State.slot_wf hs sa) hv ?_ _
    simp only [OutsideStore, not_or] at hin
    omega

/-- What a command makes of the packer is well formed. -/
theorem PackerEffect.wf {s : State} {pk : Packer} (h : PackerEffect s pk) (hs : s.pk.wf s.params.maxFields) :
    pk.wf s.params.maxFields := by
  cases h with
  | cleared => exact Packer.empty_wf _
  | built => exact hs
  | added v mask h0 hroom => exact Packer.wf_append hs hroom v mask

/-- A block write that fits in the DATA window keeps the invariant. -/
theorem State.Inv.writeBytes {s : State} (hs : s.Inv) {k : Nat} {bs : List Byte}
    (h : k + bs.length ≤ s.params.maxBytes) : State.Inv { s with data := s.data.writeBytes k bs } := by
  obtain ⟨hp, hlen, hslots, hpk, hdata, hin⟩ := hs
  refine ⟨hp, hlen, hslots, hpk, Memory.writeBytes_wf hdata k bs, fun c hc => ?_⟩
  show c.1 < s.params.maxBytes
  rcases Memory.mem_writeBytes hdata hc with ⟨-, hlt⟩ | hc
  · omega
  · exact hin c hc

/-- The physical buffer of a valid slot fits in the DATA window (10_state.md R33, 00_scope.md R12). -/
theorem State.Inv.bufLen_le {s : State} (hs : s.Inv) {sa : SlotNum} (hv : (s.slot sa).valid = true) :
    (s.slot sa).bufLen ≤ s.params.maxBytes := by
  obtain ⟨-, hn, -, -⟩ := (State.slot_wf hs sa).1 hv
  obtain ⟨-, ⟨h16, -, -⟩, -, -⟩ := hs.1
  simp only [Slot.bufLen]
  omega

/-! ### Every step keeps it -/

/-- A command's effect keeps DATA canonical and inside its window. -/
theorem Effect.keeps_data_inv {i : Instr} {s t : State} (h : Effect i s t) (hs : s.Inv) :
    t.data.wf ∧ ∀ c ∈ t.data, c.1 < s.params.maxBytes := by
  rcases h.data with e | ⟨-, sa, n, hv, hn, e⟩
  · obtain ⟨-, -, -, -, hdata⟩ := hs
    rw [e]
    exact hdata
  · have hfit : 0 + ((s.slot sa).bytes 0 n).length ≤ s.params.maxBytes := by
      simpa using Nat.le_trans hn (hs.bufLen_le hv)
    obtain ⟨-, -, -, -, hdata⟩ := hs.writeBytes hfit
    rw [e]
    exact hdata

/-- A command's effect keeps the number of slots. -/
theorem Effect.slots_length {i : Instr} {s t : State} (h : Effect i s t) : t.slots.length = s.slots.length := by
  rcases h.slots with e | ⟨sa, x, -, e, -⟩
  · rw [e]
  · rw [e, List.length_set]

/-- A command's effect keeps every slot well formed. -/
theorem Effect.keeps_slots_wf {i : Instr} {s t : State} (h : Effect i s t) (hs : s.Inv) :
    ∀ x ∈ t.slots, x.wf s.params.maxBytes := by
  have ⟨_, _, hslots, _⟩ := hs
  rcases h.slots with e | ⟨sa, x, -, e, hx⟩
  · rw [e]
    exact hslots
  · rw [e]
    intro y hy
    rcases List.mem_or_eq_of_mem_set hy with hy | rfl
    · exact hslots y hy
    · exact hx.wf hs

/-- A command's effect keeps the packer well formed. -/
theorem Effect.keeps_pk_wf {i : Instr} {s t : State} (h : Effect i s t) (hpk : s.pk.wf s.params.maxFields) :
    t.pk.wf s.params.maxFields := by
  rcases h.packer with e | ⟨-, he⟩
  · rw [e]
    exact hpk
  · exact he.wf hpk

/-- A command's effect keeps the invariant. -/
theorem Effect.keeps_inv {i : Instr} {s t : State} (h : Effect i s t) (hs : s.Inv) : t.Inv := by
  have ⟨hp, hlen, _, hpk, _⟩ := hs
  obtain ⟨hparams, -⟩ := h.operands
  rw [State.Inv, hparams]
  exact ⟨hp, h.slots_length.trans hlen, h.keeps_slots_wf hs, h.keeps_pk_wf hpk, h.keeps_data_inv hs⟩

/-- A CMD write keeps the invariant, whatever its word. -/
theorem runCommand_keeps_inv {w : Word} {s t : State} (hs : s.Inv) (h : runCommand w s = .next t) : t.Inv := by
  rcases runCommand_cases w s with ⟨i, -, e⟩ | ⟨-, -, e⟩
  · obtain ⟨u, hu, heff⟩ := exec_effect i s
    obtain rfl : u = t := by simpa [e, hu] using h
    exact heff.keeps_inv hs
  · rw [e, raise_next] at h
    exact hs.congr (by rw [h]) (by rw [h]) (by rw [h]) (by rw [h])

/-- An answered command is one that went on. -/
theorem answered_next {r : Result} {t : State} (h : answered r = .next t) :
    ∃ u, r = .next u ∧ t = u.reply .written := by
  cases r with
  | next u => exact ⟨u, rfl, by simpa [answered, eq_comm] using h⟩
  | fault f => simp [answered] at h
  | refused r => simp [answered] at h

theorem State.Inv.reply {s : State} (hs : s.Inv) (r : Reply) : (s.reply r).Inv :=
  hs.congr rfl rfl rfl rfl

/-- A write that stores keeps the invariant. -/
theorem busWrite_keeps_inv {s t : State} {off bits : Nat} {w : Word} (hs : s.Inv)
    (h : s.busWrite off bits w = .stored t) : t.Inv := by
  rcases busWrite_stored h with ⟨r, rfl⟩ | rfl | ⟨k, bs, hfit, rfl⟩
  · exact hs.congr (by simp) (by simp) (by simp) (by simp)
  · exact hs
  · exact hs.writeBytes hfit

/-- A bus access keeps the invariant. -/
theorem handleAccess_keeps_inv {a : BusAccess} {s t : State} (hs : s.Inv) (h : handleAccess a s = .next t) :
    t.Inv := by
  rcases handleAccess_cases a s with ⟨r, e⟩ | ⟨off, w, u, hu, e⟩ | ⟨w, -, e⟩
  · obtain rfl : s.reply r = t := by simpa [e] using h
    exact hs.reply r
  · obtain rfl : u.reply .written = t := by simpa [e] using h
    exact (busWrite_keeps_inv hs hu).reply _
  · obtain ⟨u, hu, rfl⟩ := answered_next (e ▸ h)
    exact (runCommand_keeps_inv hs hu).reply _

/-- The reset event gives a state that meets the invariant (70_reset_and_hazards.md R300). -/
theorem State.afterReset_inv {s : State} (hp : s.params.wf) : s.afterReset.Inv := by
  refine ⟨hp, by simp, fun x hx => ?_, Packer.empty_wf _, ⟨.nil, fun c hc => ?_⟩, fun c hc => ?_⟩
  · rw [State.afterReset_slots] at hx
    rw [List.eq_of_mem_replicate hx]
    exact Slot.empty_wf _
  · simp at hc
  · simp at hc

/-- Settles O8: each kind of input keeps the invariant, a command through its `Effect`. -/
theorem stepKeepsInvariant : Obligations.StepKeepsInvariant := by
  intro s t hs h
  have hrest (rest : List PortEvent) : State.Inv { s with port := rest } := hs.congr rfl rfl rfl rfl
  match hport : s.port with
  | [] =>
    obtain rfl : s = t := by simpa [step_of_empty hport] using h
    exact hs
  | .access a :: rest => exact handleAccess_keeps_inv (hrest rest) (step_of_access hport ▸ h)
  | .reset :: rest =>
    obtain rfl : State.afterReset { s with port := rest } = t := by simpa [step_of_reset hport] using h
    exact State.afterReset_inv hs.1

end Sys2Proof.Machine
end

section
/-! The register window step by step: command writes, operand registers, STATUS, and the constant and live
registers (10_state.md R43 to R49). -/

namespace Sys2Proof.Machine

/-- Every register lies in the window, below DATA (10_state.md R42). -/
theorem Reg.offset_lt (r : Reg) : r.offset < dataOffset := by
  cases r <;> decide

theorem windowOffset_reg (s : State) (r : Reg) : s.windowOffset (s.params.base + r.offset) = some r.offset :=
  windowOffset_add (by have := r.offset_lt; omega)

/-- A 32-bit write at the offset of any register but CMD stores what the register takes of it. -/
theorem busWrite_reg (s : State) {r : Reg} (hr : r ≠ .cmd) (w : Word) :
    s.busWrite r.offset 32 w = .stored (s.setReg r w) := by
  cases r <;> first | exact absurd rfl hr | rfl

/-- No register shows the inputs or the answers. -/
theorem State.reg_port_replies (s : State) (es : List PortEvent) (rs : List Reply) (q : Reg) :
    State.reg { s with port := es, replies := rs } q = s.reg q := by
  cases q <;> rfl

/-- The step on a 32-bit read of a register answers its value and changes nothing else. -/
theorem step_reg_read {s : State} {r : Reg} {rest : List PortEvent}
    (h : s.port = .access ⟨s.params.base + r.offset, 32, .read⟩ :: rest) :
    step s = .next { s with port := rest, replies := .readWord (s.reg r) :: s.replies } := by
  have hoff := windowOffset_reg { s with port := rest } r
  have hread : State.busRead { s with port := rest } r.offset 32 = .readWord (s.reg r) :=
    (busRead_reg _ r).trans (congrArg Reply.readWord (s.reg_port_replies rest s.replies r))
  rw [step_of_access h, handleAccess]
  simp only [hoff, hread]
  rfl

/-- The step on a 32-bit write of a register but CMD stores what the register takes of it. -/
theorem step_reg_write {s : State} {r : Reg} (hr : r ≠ .cmd) {rest : List PortEvent} {w : Word}
    (h : s.port = .access ⟨s.params.base + r.offset, 32, .write w⟩ :: rest) :
    step s = .next (({ s with port := rest }.setReg r w).reply .written) := by
  have hoff := windowOffset_reg { s with port := rest } r
  have hwrite := busWrite_reg { s with port := rest } hr w
  rw [step_of_access h, handleAccess]
  simp only [hoff, hwrite]

/-- The step on a CMD write runs its word. -/
theorem step_cmd_write {s : State} {rest : List PortEvent} {w : Word}
    (h : s.port = .access ⟨s.params.base + Reg.cmd.offset, 32, .write w⟩ :: rest) :
    step s = answered (runCommand w { s with port := rest }) := by
  have hoff := windowOffset_reg { s with port := rest } .cmd
  have hwrite : State.busWrite { s with port := rest } Reg.cmd.offset 32 w = .command w := busWrite_cmd _ w
  rw [step_of_access h, handleAccess]
  simp only [hoff, hwrite]

/-- Settles O5: the step runs the word, and the word is a command. -/
theorem stepRunsDecodedCommand : Obligations.StepRunsDecodedCommand := by
  intro s rest w i hport hdec
  have hrun : runCommand w { s with port := rest } = exec i { s with port := rest } := by
    simp only [runCommand, hdec]
  rw [step_cmd_write hport, hrun]

/-! ### The operand registers -/

/-- The registers a host's write changes (10_state.md R45, R46). -/
def Reg.isOperand : Reg → Bool
  | .opa | .opb | .val0 | .val1 | .val2 | .val3 => true
  | .cmd | .status | .result | .result2 | .pkTotal | .pkNfields | .id | .param0 | .param1 => false

theorem Reg.isOperand_iff {r : Reg} :
    r.isOperand = true ↔ r ∈ [Reg.opa, .opb, .val0, .val1, .val2, .val3] := by
  cases r <;> decide

/-- A write of an operand register shows in that register and in no other. -/
theorem State.reg_setReg (s : State) {r : Reg} (hr : r.isOperand = true) (w : Word) (q : Reg) :
    (s.setReg r w).reg q = if q = r then w else s.reg q := by
  by_cases h : q = r
  · subst h
    rw [if_pos rfl]
    cases q <;> first | rfl | simp [Reg.isOperand] at hr
  · rw [if_neg h]
    cases r <;> cases q <;> first | rfl | exact absurd rfl h

/-- A write of any other register is ignored (20_memory.md R76). -/
theorem State.setReg_of_not_operand (s : State) {r : Reg} (hr : r.isOperand = false) (w : Word) :
    s.setReg r w = s := by
  cases r <;> first | rfl | simp [Reg.isOperand] at hr

/-- Settles O14: the write changes one register, and the read shows it. -/
theorem operandRegistersReadBack : Obligations.OperandRegistersReadBack := by
  intro s rest r w hr hport
  have hop : r.isOperand = true := Reg.isOperand_iff.2 hr
  have hcmd : r ≠ .cmd := by rintro rfl; simp [Reg.isOperand] at hop
  have hreg (s' : State) (q : Reg) : ((s'.setReg r w).reply .written).reg q = if q = r then w else s'.reg q :=
    (State.reg_port_replies (s'.setReg r w) _ _ q).trans (s'.reg_setReg hop w q)
  have hwrite := step_reg_write hcmd hport
  refine ⟨_, _, hwrite, step_reg_read (r := r) (rest := rest) (by simp), ?_, fun q => ?_,
    by simp, by simp, by simp, fun k => by simp⟩
  · simp [hreg]
  · rw [hreg]
    exact congrArg (ite (q = r) w) (State.reg_port_replies s _ _ q)

/-! ### STATUS -/

/-- The number of a code stands in R270's table. -/
theorem ErrCode.mem_errorNumbers (e : ErrCode) : (e, e.code.toNat) ∈ errorNumbers := by
  cases e <;> decide

/-- STATUS bit by bit (10_state.md R44). -/
theorem State.getLsbD_status (s : State) (j : Nat) :
    s.status.getLsbD j =
      (s.err.code.getLsbD j || (decide (j = 8) && s.pspent) || (decide (j = 9) && s.pfull)) := by
  have hbit (b : Bool) (n : Nat) (hn : n < 32) :
      ((BitVec.ofBool b).setWidth 32 <<< n).getLsbD j = (decide (j = n) && b) := by
    rw [BitVec.getLsbD_shiftLeft, BitVec.getLsbD_setWidth, BitVec.getLsbD_ofBool]
    rcases Nat.lt_trichotomy j n with h | rfl | h
    · simp [h, Nat.ne_of_lt h]
    · simp [hn]
    · simp [show j ≠ n by omega, show j - n ≠ 0 by omega]
  have hcode : (s.err.code.setWidth 32).getLsbD j = s.err.code.getLsbD j := by
    rw [BitVec.getLsbD_setWidth]
    by_cases h : j < 32
    · simp [h]
    · rw [BitVec.getLsbD_of_ge _ j (by omega)]; simp
  rw [State.status, BitVec.getLsbD_or, BitVec.getLsbD_or, hcode, hbit _ 8 (by decide), hbit _ 9 (by decide)]

/-- A bit of STATUS outside [3:0], 8 and 9 is 0 (10_state.md R44). -/
theorem State.getLsbD_status_reserved (s : State) {j : Nat} (h4 : 4 ≤ j) (h8 : j ≠ 8) (h9 : j ≠ 9) :
    s.status.getLsbD j = false := by
  rw [State.getLsbD_status, BitVec.getLsbD_of_ge _ j h4]
  simp [h8, h9]

/-- STATUS[3:0] is the code (10_state.md R44). -/
theorem State.status_err (s : State) : s.status.extractLsb' 0 4 = s.err.code := by
  apply BitVec.eq_of_getLsbD_eq
  intro j hj
  rw [BitVec.getLsbD_extractLsb', State.getLsbD_status]
  simp [hj, show j ≠ 8 by omega, show j ≠ 9 by omega]

/-- A field of STATUS with none of bits [3:0], 8 and 9 is 0 (10_state.md R44). -/
theorem State.status_reserved_field (s : State) {start len : Nat} (h4 : 4 ≤ start)
    (h : start + len ≤ 8 ∨ 10 ≤ start) : s.status.extractLsb' start len = 0 := by
  apply BitVec.eq_of_getLsbD_eq
  intro j hj
  rw [BitVec.getLsbD_extractLsb', s.getLsbD_status_reserved (by omega) (by omega) (by omega)]
  simp

theorem State.status_pspent (s : State) : s.status.getLsbD 8 = s.pk.spent := by
  rw [State.getLsbD_status, BitVec.getLsbD_of_ge _ 8 (by decide)]
  simp [State.pspent]

theorem State.status_pfull (s : State) :
    s.status.getLsbD 9 = true ↔ s.pk.fields.length = s.params.maxFields := by
  rw [State.getLsbD_status, BitVec.getLsbD_of_ge _ 9 (by decide)]
  simp [State.pfull]

/-- Settles O18: the read answers STATUS, whose fields are those of the lemmas above. -/
theorem statusRegisterFields : Obligations.StatusRegisterFields := by
  intro s rest hport
  refine ⟨s.status, step_reg_read (r := .status) hport, ?_,
    s.status_reserved_field (by decide) (.inl (by decide)), s.status_pspent, s.status_pfull,
    s.status_reserved_field (by decide) (.inr (by decide))⟩
  rw [s.status_err]
  exact s.err.mem_errorNumbers

/-! ### The constant and the live registers -/

/-- PARAM0 bit by bit (10_state.md R47). -/
theorem getLsbD_param0Word (p : Params) (j : Nat) :
    (param0Word p).getLsbD j =
      if j < 8 then (BitVec.ofNat 8 p.numSlots).getLsbD j
      else if j < 16 then false
      else (BitVec.ofNat 16 p.maxFields).getLsbD (j - 16) := by
  refine BitVec.getLsbD_append.trans ?_
  rw [BitVec.getLsbD_append, BitVec.getLsbD_zero, Nat.sub_sub]
  simp only [show j - 8 < 8 ↔ j < 16 by omega]

/-- The fields of PARAM0 for parameters that fit them (10_state.md R47). -/
theorem param0Word_fields {p : Params} (hp : p.wf) :
    ((param0Word p).extractLsb' 0 8).toNat = p.numSlots ∧ (param0Word p).extractLsb' 8 8 = 0 ∧
      ((param0Word p).extractLsb' 16 16).toNat = p.maxFields := by
  obtain ⟨⟨-, hslots⟩, -, ⟨-, hfields⟩, -⟩ := hp
  have hlow : (param0Word p).extractLsb' 0 8 = BitVec.ofNat 8 p.numSlots := by
    apply BitVec.eq_of_getLsbD_eq
    intro j hj
    rw [BitVec.getLsbD_extractLsb', getLsbD_param0Word]
    simp [hj]
  have hmid : (param0Word p).extractLsb' 8 8 = 0 := by
    apply BitVec.eq_of_getLsbD_eq
    intro j hj
    rw [BitVec.getLsbD_extractLsb', getLsbD_param0Word]
    simp [show 8 + j < 16 by omega]
  have hhigh : (param0Word p).extractLsb' 16 16 = BitVec.ofNat 16 p.maxFields := by
    apply BitVec.eq_of_getLsbD_eq
    intro j hj
    rw [BitVec.getLsbD_extractLsb', getLsbD_param0Word]
    simp [hj, show ¬16 + j < 8 by omega]
  rw [hlow, hhigh, BitVec.toNat_ofNat, BitVec.toNat_ofNat]
  exact ⟨Nat.mod_eq_of_lt (by omega), hmid, Nat.mod_eq_of_lt (by omega)⟩

/-- The widths of a field list add up to at most 32 for each field (42_packer.md R220). -/
theorem widthSum_le {fields : List Field} (h : ∀ f ∈ fields, f.width = fieldWidth f.mask) :
    widthSum fields ≤ 32 * fields.length := by
  have hle : ∀ w ∈ fields.map Field.width, w ≤ 32 := by
    simp only [List.mem_map]
    rintro _ ⟨f, hf, rfl⟩
    rw [h f hf]
    exact fieldWidth_le _
  have hsum := List.sum_le_card_nsmul _ 32 hle
  rw [List.length_map, smul_eq_mul] at hsum
  rw [widthSum]
  omega

/-- In a state that meets the invariant every count a register shows fits in its 32 bits
(10_state.md R47, R48). -/
theorem State.Inv.counts_fit {s : State} (hs : s.Inv) :
    s.params.maxBytes < 2 ^ 32 ∧ s.pk.totalBits < 2 ^ 32 ∧ s.pk.fields.length < 2 ^ 32 := by
  obtain ⟨⟨-, ⟨-, hbytes, -⟩, ⟨-, hfields⟩, -⟩, -, -, ⟨hlen, hwidth, htotal⟩, -⟩ := hs
  have hsum := widthSum_le hwidth
  omega

/-- A write of a register that takes none of it leaves the state as it is, answered. -/
theorem step_reg_write_ignored {s : State} {r : Reg} (hr : r.isOperand = false) (hcmd : r ≠ .cmd)
    {rest : List PortEvent} {w : Word}
    (h : s.port = .access ⟨s.params.base + r.offset, 32, .write w⟩ :: rest) :
    step s = .next { s with port := rest, replies := .written :: s.replies } := by
  rw [step_reg_write hcmd h, State.setReg_of_not_operand _ hr]
  rfl

/-- Settles O19: the reads are those of the registers, whose counts fit, and no constant takes a write. -/
theorem constantAndLiveRegisters : Obligations.ConstantAndLiveRegisters := by
  intro s hs
  obtain ⟨hbytes, htotal, hfields⟩ := hs.counts_fit
  refine ⟨busRead_reg s .id, ⟨_, busRead_reg s .param0, param0Word_fields hs.1⟩,
    ⟨_, busRead_reg s .param1, (BitVec.toNat_ofNat _ _).trans (Nat.mod_eq_of_lt hbytes)⟩,
    ⟨_, busRead_reg s .pkTotal, (BitVec.toNat_ofNat _ _).trans (Nat.mod_eq_of_lt htotal)⟩,
    ⟨_, busRead_reg s .pkNfields, (BitVec.toNat_ofNat _ _).trans (Nat.mod_eq_of_lt hfields)⟩,
    busRead_reg s .result, busRead_reg s .result2, fun rest w off hoff hport => ?_⟩
  obtain ⟨r, hr, hcmd, rfl⟩ : ∃ r : Reg, r.isOperand = false ∧ r ≠ .cmd ∧ r.offset = off := by
    simp only [List.mem_cons, List.not_mem_nil, or_false] at hoff
    rcases hoff with rfl | rfl | rfl
    · exact ⟨.id, rfl, by decide, rfl⟩
    · exact ⟨.param0, rfl, by decide, rfl⟩
    · exact ⟨.param1, rfl, by decide, rfl⟩
  exact step_reg_write_ignored hr hcmd hport

end Sys2Proof.Machine
end

section
/-! What a command may change of the slots and of the packer (10_state.md R37, R38, R41). -/

namespace Sys2Proof.Machine

/-! ### The slots -/

/-- A command's effect leaves every slot alone but the one it writes. -/
theorem Effect.slots_getElem {i : Instr} {s t : State} (h : Effect i s t) {k : Nat}
    (hk : ∀ sa, i.writesSlot = some sa → sa.toNat ≠ k) : t.slots[k]? = s.slots[k]? := by
  rcases h.slots with e | ⟨sa, x, hsa, e, -⟩
  · rw [e]
  · rw [e, List.getElem?_set_ne (hk sa hsa)]

/-- Settles O31, from the command's `Effect`. -/
theorem commandsWriteOnlyTheirSlot : Obligations.CommandsWriteOnlyTheirSlot := by
  intro i s
  obtain ⟨t, ht, heff⟩ := exec_effect i s
  exact ⟨t, ht, heff.slots_length, fun k hk => heff.slots_getElem hk⟩

theorem State.slot_of_getElem {s : State} {sa : SlotNum} {x : Slot} (h : s.slots[sa.toNat]? = some x) :
    s.slot sa = x := by
  simp [State.slot, List.getD_eq_getElem?_getD, h]

/-- SET of a read-only store raises ModeViolation (41_store_access.md R172). -/
theorem exec_set_readOnly {s : State} {sa : SlotNum} (hv : (s.slot sa).valid = true)
    (hm : (s.slot sa).mutable = false) : exec (.set sa) s = raise .modeViolation s := by
  simp [exec, execSet, hv, hm]

/-- Settles O32: either the command writes another slot, or it is SET of this one, which raises. -/
theorem readOnlySlotStays : Obligations.ReadOnlySlotStays := by
  intro i s k x hx hv hm hset
  by_cases hk : ∃ sa, i.writesSlot = some sa ∧ sa.toNat = k
  · obtain ⟨sa, hsa, rfl⟩ := hk
    obtain rfl := hset sa hsa rfl
    have hslot := State.slot_of_getElem hx
    exact ⟨_, exec_set_readOnly (hslot ▸ hv) (hslot ▸ hm), hx⟩
  · obtain ⟨t, ht, heff⟩ := exec_effect i s
    exact ⟨t, ht, (heff.slots_getElem fun sa hsa e => hk ⟨sa, hsa, e⟩).trans hx⟩

/-! ### The packer -/

/-- Two outcomes that go on with the same packer. -/
def SamePacker (a b : Result) : Prop :=
  ∃ t u, a = .next t ∧ b = .next u ∧ t.pk = u.pk

theorem SamePacker.ofRaise {s u : State} (hpk : s.pk = u.pk) (e : ErrCode) :
    SamePacker (raise e s) (raise e u) :=
  ⟨_, _, rfl, rfl, hpk⟩

/-- An add makes the same of equal packers in blocks of equal parameters (42_packer.md R222). -/
theorem SamePacker.ofAddField (s u : State) (hpk : s.pk = u.pk) (hparams : s.params = u.params) (v : BitVec 64)
    (mask : BitVec 32) : SamePacker (conclude s (addField v mask s)) (conclude u (addField v mask u)) := by
  rcases addField_cases v mask s with ⟨h0, e⟩ | ⟨h0, hfull, e⟩ | ⟨h0, hroom, e⟩
  · rw [e, addField_of_spent (hpk ▸ h0)]
    exact .ofRaise hpk _
  · rw [e, addField_of_full (hpk ▸ h0) (hpk ▸ hparams ▸ hfull)]
    exact .ofRaise hpk _
  · rw [e, addField_of_room (hpk ▸ h0) (hpk ▸ hparams ▸ hroom)]
    exact ⟨_, _, rfl, rfl, by rw [hpk]⟩

/-- PBUILD makes the same of equal packers in blocks of equal parameters, whatever the slots hold
(42_packer.md R228). -/
theorem SamePacker.ofPbuild (s u : State) (hpk : s.pk = u.pk) (hparams : s.params = u.params) (m : Bool)
    (sa : SlotNum) : SamePacker (exec (.pbuild m sa) s) (exec (.pbuild m sa) u) := by
  simp only [exec, execPbuild, hpk, hparams]
  split
  · exact .ofRaise hpk _
  split
  · exact .ofRaise hpk _
  split
  · exact .ofRaise hpk _
  rename_i hfit
  by_cases h0 : (pack u.pk.fields).length = 0
  · simp only [buildStore, construct_of_empty h0]
    exact .ofRaise hpk _
  · rw [buildStore_of_fits h0 (by rw [hparams]; omega), buildStore_of_fits h0 (by omega)]
    exact ⟨_, _, rfl, rfl, by rw [hpk]⟩

/-- A command that is no packer command keeps the packer. -/
theorem Effect.pk_eq {i : Instr} {s t : State} (h : Effect i s t) (hi : i.writesPacker = false) :
    t.pk = s.pk := by
  rcases h.packer with e | ⟨hw, -⟩
  · exact e
  · simp [hi] at hw

/-- A command that writes no slot keeps them all. -/
theorem Effect.slots_eq {i : Instr} {s t : State} (h : Effect i s t) (hi : i.writesSlot = none) :
    t.slots = s.slots := by
  rcases h.slots with e | ⟨sa, -, hw, -⟩
  · exact e
  · simp [hi] at hw

/-- What a command makes of the packer does not depend on the slots (10_state.md R41). -/
theorem exec_samePacker (i : Instr) (s : State) (others : List Slot) :
    SamePacker (exec i s) (exec i { s with slots := others }) := by
  by_cases hi : i.writesPacker = false
  · obtain ⟨t, ht, hs⟩ := exec_effect i s
    obtain ⟨u, hu, hs'⟩ := exec_effect i { s with slots := others }
    exact ⟨t, u, ht, hu, (hs.pk_eq hi).trans (hs'.pk_eq hi).symm⟩
  cases i
  case padd => exact .ofAddField s { s with slots := others } rfl rfl _ _
  case paddb => exact .ofAddField s { s with slots := others } rfl rfl _ _
  case padd8 => exact .ofAddField s { s with slots := others } rfl rfl _ _
  case padd16 => exact .ofAddField s { s with slots := others } rfl rfl _ _
  case pbuild m sa => exact .ofPbuild s { s with slots := others } rfl rfl m sa
  case pclear => exact ⟨_, _, rfl, rfl, rfl⟩
  all_goals exact absurd rfl hi

/-- The adds and PCLEAR write no slot (30_encoding.md R107). -/
theorem writesSlot_of_add_or_pclear {i : Instr} (h : i.isAdd = true ∨ i = .pclear) : i.writesSlot = none := by
  cases i <;> first | rfl | simp [Instr.isAdd] at h

/-- Settles O33: the packer commands by `exec_samePacker`, the frames by the command's `Effect`. -/
theorem packerAndSlotsApart : Obligations.PackerAndSlotsApart := by
  intro i s others
  obtain ⟨t, u, ht, hu, hpk⟩ := exec_samePacker i s others
  obtain ⟨t', ht', heff⟩ := exec_effect i s
  obtain rfl : t = t' := by simpa [ht] using ht'
  exact ⟨t, u, ht, hu, hpk, heff.pk_eq, fun h => heff.slots_eq (writesSlot_of_add_or_pclear h)⟩

end Sys2Proof.Machine
end

section
/-! The bus beyond the named registers: reads of any kind, accesses that are refused or outside the window, the
reserved offsets, and the DATA window (20_memory.md sections 2 and 3). -/

namespace Sys2Proof.Machine

/-! ### Reads -/

/-- What a read of any address and width is answered. -/
def State.readAnswer (s : State) (addr bits : Nat) : Reply :=
  match s.windowOffset addr with
  | none => .outside
  | some off => s.busRead off bits

/-- No read of the window shows the inputs or the answers. -/
theorem State.busRead_port_replies (s : State) (es : List PortEvent) (rs : List Reply) (off bits : Nat) :
    State.busRead { s with port := es, replies := rs } off bits = s.busRead off bits := by
  simp only [State.busRead, State.reg_port_replies]

/-- No read shows the inputs or the answers. -/
theorem State.readAnswer_port_replies (s : State) (es : List PortEvent) (rs : List Reply) (addr bits : Nat) :
    State.readAnswer { s with port := es, replies := rs } addr bits = s.readAnswer addr bits := by
  have hoff : State.windowOffset { s with port := es, replies := rs } addr = s.windowOffset addr := rfl
  simp only [State.readAnswer, hoff, State.busRead_port_replies]

/-- A read inside the window is answered by the register range or DATA. -/
theorem State.readAnswer_add (s : State) {off : Nat} (h : off < dataOffset + s.params.maxBytes) (bits : Nat) :
    s.readAnswer (s.params.base + off) bits = s.busRead off bits := by
  rw [State.readAnswer, windowOffset_add h]

/-- A read answers and does nothing else (20_memory.md R77). -/
theorem handleAccess_read (s : State) (addr bits : Nat) :
    handleAccess ⟨addr, bits, .read⟩ s = .next (s.reply (s.readAnswer addr bits)) := by
  rw [handleAccess, State.readAnswer]
  cases s.windowOffset addr <;> rfl

/-- The step on a read answers it and changes nothing else. -/
theorem step_read {s : State} {addr bits : Nat} {rest : List PortEvent}
    (h : s.port = .access ⟨addr, bits, .read⟩ :: rest) :
    step s = .next { s with port := rest, replies := s.readAnswer addr bits :: s.replies } := by
  rw [step_of_access h, handleAccess_read, s.readAnswer_port_replies rest s.replies]
  rfl

/-- Settles O11: both reads are answered from the same block. -/
theorem readsHaveNoEffect : Obligations.ReadsHaveNoEffect := by
  intro s rest addr bits hport
  refine ⟨s.readAnswer addr bits, _, rfl, step_read hport, ?_⟩
  rw [step_read rfl, State.readAnswer_port_replies]
  rfl

/-! ### Accesses outside the window, and accesses the block does not support -/

/-- An address outside the window has no offset (20_memory.md R71). -/
theorem windowOffset_of_outside {s : State} {addr : Nat}
    (h : addr < s.params.base ∨ s.params.base + (0x100 + s.params.maxBytes) ≤ addr) :
    s.windowOffset addr = none := by
  rw [State.windowOffset, if_neg (by simp only [dataOffset]; omega)]

/-- Settles O13: the access has no offset in the window. -/
theorem outsideWindowIgnored : Obligations.OutsideWindowIgnored := by
  intro s rest a hport hout
  have hoff : State.windowOffset { s with port := rest } a.addr = none := windowOffset_of_outside hout
  rw [step_of_access hport, handleAccess]
  simp only [hoff]
  rfl

/-- The accesses of the register range (20_memory.md R73). -/
theorem regAccepts_iff {off bits : Nat} :
    regAccepts off bits = true ↔ off < dataOffset ∧ bits = 32 ∧ off % 4 = 0 := by
  simp [regAccepts, and_assoc]

/-- The accesses of the DATA window (20_memory.md R74). -/
theorem dataAccepts_iff {maxBytes k bits : Nat} :
    dataAccepts maxBytes k bits = true ↔
      (bits = 8 ∧ k < maxBytes) ∨ (bits = 32 ∧ k % 4 = 0 ∧ k + 4 ≤ maxBytes) := by
  simp [dataAccepts, and_assoc]

/-- An unsupported access is one that the register range, or DATA, does not accept. -/
theorem unsupported_iff {maxBytes off bits : Nat} :
    Unsupported maxBytes off bits ↔
      if off < dataOffset then ¬regAccepts off bits = true
      else ¬dataAccepts maxBytes (off - dataOffset) bits = true := by
  rw [regAccepts_iff, dataAccepts_iff]
  by_cases h : off < dataOffset
  · rw [if_pos h, Unsupported, if_pos (show off < 0x100 from h), and_iff_right h]
  · rw [if_neg h, Unsupported, if_neg (show ¬off < 0x100 from h)]
    rfl

/-- An unsupported read gets the error response (20_memory.md R75). -/
theorem busRead_unsupported {s : State} {off bits : Nat} (h : Unsupported s.params.maxBytes off bits) :
    s.busRead off bits = .error := by
  rw [unsupported_iff] at h
  by_cases hoff : off < dataOffset
  · rw [if_pos hoff] at h
    simp [State.busRead, hoff, h]
  · rw [if_neg hoff] at h
    simp [State.busRead, hoff, h]

/-- An unsupported write is refused (20_memory.md R75). -/
theorem busWrite_unsupported {s : State} {off bits : Nat} (h : Unsupported s.params.maxBytes off bits) (w : Word) :
    s.busWrite off bits w = .unsupported := by
  rw [unsupported_iff] at h
  by_cases hoff : off < dataOffset
  · rw [if_pos hoff] at h
    simp [State.busWrite, hoff, h]
  · rw [if_neg hoff] at h
    simp [State.busWrite, hoff, h]

/-- An unsupported access gets the error response and does nothing else, read or write (20_memory.md R75). -/
theorem handleAccess_unsupported {s : State} {a : BusAccess} {off : Nat} (hoff : s.windowOffset a.addr = some off)
    (h : Unsupported s.params.maxBytes off a.bits) : handleAccess a s = .next (s.reply .error) := by
  rw [handleAccess]
  cases hdir : a.dir with
  | read => simp only [hoff, busRead_unsupported h]
  | write w => simp only [hoff, busWrite_unsupported h w]

/-- Settles O12: the access has an offset in the window, at which it is refused. -/
theorem unsupportedAccessRefused : Obligations.UnsupportedAccessRefused := by
  intro s rest a occasion hport hbase htop hun
  obtain ⟨off, haddr⟩ := Nat.exists_eq_add_of_le hbase
  have hlt : off < dataOffset + s.params.maxBytes := by simp only [dataOffset]; omega
  rw [haddr, Nat.add_sub_cancel_left] at hun
  have hoff : State.windowOffset { s with port := rest } a.addr = some off := by
    rw [haddr]
    exact windowOffset_add (s := { s with port := rest }) hlt
  refine ⟨?_, rfl⟩
  rw [step_of_access hport, handleAccess_unsupported hoff hun]
  rfl

/-! ### Accesses at an offset of the window -/

/-- The step on a read in the window answers what stands at its offset. -/
theorem step_read_add {s : State} {off bits : Nat} {rest : List PortEvent}
    (hlt : off < dataOffset + s.params.maxBytes)
    (h : s.port = .access ⟨s.params.base + off, bits, .read⟩ :: rest) :
    step s = .next { s with port := rest, replies := s.busRead off bits :: s.replies } := by
  rw [step_read h, s.readAnswer_add hlt]

/-- The step on a write in the window that stores gives the state stored. -/
theorem step_write_add {s t : State} {off bits : Nat} {w : Word} {rest : List PortEvent}
    (hlt : off < dataOffset + s.params.maxBytes)
    (h : s.port = .access ⟨s.params.base + off, bits, .write w⟩ :: rest)
    (hw : State.busWrite { s with port := rest } off bits w = .stored t) :
    step s = .next (t.reply .written) := by
  have hoff : State.windowOffset { s with port := rest } (s.params.base + off) = some off :=
    windowOffset_add (s := { s with port := rest }) hlt
  rw [step_of_access h, handleAccess]
  simp only [hoff, hw]

/-! ### The reserved offsets -/

/-- An aligned 32-bit access of the register range is supported (20_memory.md R73). -/
theorem regAccepts_word {off : Nat} (hlt : off < dataOffset) (h4 : off % 4 = 0) : regAccepts off 32 = true :=
  regAccepts_iff.2 ⟨hlt, rfl, h4⟩

/-- A reserved offset reads 0 (20_memory.md R76). -/
theorem busRead_reserved (s : State) {off : Nat} (h : 0x03C ≤ off) (hlt : off < dataOffset) (h4 : off % 4 = 0) :
    s.busRead off 32 = .readWord 0 := by
  simp [State.busRead, hlt, regAccepts_word hlt h4, atOffset_reserved h]

/-- A reserved offset ignores writes (20_memory.md R76). -/
theorem busWrite_reserved (s : State) {off : Nat} (h : 0x03C ≤ off) (hlt : off < dataOffset) (h4 : off % 4 = 0)
    (w : Word) : s.busWrite off 32 w = .stored s := by
  simp [State.busWrite, hlt, regAccepts_word hlt h4, atOffset_reserved h]

/-- The offsets of the read-only registers (10_state.md R42). -/
theorem exists_readOnly_reg {off : Nat}
    (h : off ∈ [0x004, 0x020, 0x024, 0x028, 0x02C, 0x030, 0x034, 0x038]) :
    ∃ r : Reg, r.isOperand = false ∧ r ≠ .cmd ∧ r.offset = off := by
  simp only [List.mem_cons, List.not_mem_nil, or_false] at h
  rcases h with rfl | rfl | rfl | rfl | rfl | rfl | rfl | rfl
  · exact ⟨.status, rfl, by decide, rfl⟩
  · exact ⟨.result, rfl, by decide, rfl⟩
  · exact ⟨.result2, rfl, by decide, rfl⟩
  · exact ⟨.pkTotal, rfl, by decide, rfl⟩
  · exact ⟨.pkNfields, rfl, by decide, rfl⟩
  · exact ⟨.id, rfl, by decide, rfl⟩
  · exact ⟨.param0, rfl, by decide, rfl⟩
  · exact ⟨.param1, rfl, by decide, rfl⟩

/-- Settles O15: the read-only registers take no write, CMD reads 0, and the reserved offsets do both. -/
theorem readOnlyAndReservedOffsets : Obligations.ReadOnlyAndReservedOffsets := by
  constructor
  · rintro s rest off w (hro | ⟨hlow, hlt, h4⟩) hport
    · obtain ⟨r, hr, hcmd, rfl⟩ := exists_readOnly_reg hro
      exact step_reg_write_ignored hr hcmd hport
    · exact step_write_add (Nat.lt_add_right _ hlt) hport (busWrite_reserved _ hlow hlt h4 w)
  · rintro s rest off (rfl | ⟨hlow, hlt, h4⟩) hport
    · exact step_reg_read (r := .cmd) hport
    · rw [step_read_add (Nat.lt_add_right _ hlt) hport, busRead_reserved s hlow hlt h4]

/-! ### The DATA window -/

/-- The step on an 8-bit write of a DATA byte stores the low byte of its data. -/
theorem step_write_byte {s : State} {k : Nat} {w : Word} {rest : List PortEvent} (hk : k < s.params.maxBytes)
    (h : s.port = .access ⟨s.params.base + 0x100 + k, 8, .write w⟩ :: rest) :
    step s = .next { s with
      port := rest, replies := .written :: s.replies, data := s.data.write k (w.extractLsb' 0 8) } := by
  rw [Nat.add_assoc] at h
  exact step_write_add (Nat.add_lt_add_left hk _) h (busWrite_byte (s := { s with port := rest }) w hk)

/-- The step on an aligned 32-bit write of DATA stores the four bytes of the word. -/
theorem step_write_word {s : State} {k : Nat} {w : Word} {rest : List PortEvent} (h4 : k % 4 = 0)
    (hk : k + 4 ≤ s.params.maxBytes)
    (h : s.port = .access ⟨s.params.base + 0x100 + k, 32, .write w⟩ :: rest) :
    step s = .next { s with
      port := rest, replies := .written :: s.replies, data := s.data.writeBytes k (bytesLE 4 w.toNat) } := by
  rw [Nat.add_assoc] at h
  exact step_write_add (Nat.add_lt_add_left (by omega) _) h
    (busWrite_word (s := { s with port := rest }) w h4 hk)

/-- Settles O16: the memory laws of one byte. -/
theorem dataByteWrite : Obligations.DataByteWrite := by
  intro s rest k w hs hk hport
  obtain ⟨-, -, -, -, hwf, -⟩ := hs
  refine ⟨_, step_write_byte hk hport, ?_, fun j hj => Memory.read_write_ne _ hj, rfl⟩
  rw [busRead_byte (by exact hk), Memory.read_write_same hwf]

/-- A block read where a block was written gives the bytes written. -/
theorem Memory.readBytes_writeBytes {m : Memory} (hm : m.wf) (k : Nat) (bs : List Byte) :
    (m.writeBytes k bs).readBytes k bs.length = bs := by
  refine List.ext_getElem (by simp) fun j hj hj' => ?_
  simp [Memory.readBytes, Memory.read_writeBytes hm, hj']

/-- Byte `j` of the little-endian bytes of a word is its field `[8j + 7 : 8j]` (20_memory.md R72). -/
theorem getD_bytesLE_word (w : Word) {j : Nat} (hj : j < 4) :
    (bytesLE 4 w.toNat).getD j 0x00 = w.extractLsb' (8 * j) 8 := by
  rw [getD_bytesLE, if_pos hj, BitVec.extractLsb', Nat.shiftRight_eq_div_pow, Nat.pow_mul]

/-- The word of the little-endian bytes of a word. -/
theorem ofNat_leNat_bytesLE_word (w : Word) : BitVec.ofNat 32 (leNat (bytesLE 4 w.toNat)) = w := by
  rw [leNat_bytesLE, Nat.mod_eq_of_lt w.isLt, BitVec.ofNat_toNat, BitVec.setWidth_eq]

/-- Settles O17: the memory laws of a block, and the little-endian bytes of a word. -/
theorem dataWordLittleEndian : Obligations.DataWordLittleEndian := by
  intro s rest k w hs h4 hk hport
  obtain ⟨-, -, -, -, hwf, -⟩ := hs
  have hread (j : Nat) := Memory.read_writeBytes hwf k (bytesLE 4 w.toNat) j
  rw [length_bytesLE] at hread
  have hword := Memory.readBytes_writeBytes hwf k (bytesLE 4 w.toNat)
  rw [length_bytesLE] at hword
  refine ⟨_, step_write_word h4 hk hport, fun j hj => ?_, ?_, fun j hj => ?_, rfl⟩
  · have hlt : k + j < s.params.maxBytes := by omega
    rw [Nat.add_assoc, busRead_byte (by exact hlt), hread, if_pos (by omega), Nat.add_sub_cancel_left,
      getD_bytesLE_word w hj]
  · rw [busRead_word h4 (by exact hk), hword, ofNat_leNat_bytesLE_word]
  · exact (hread j).trans (if_neg (by omega))

end Sys2Proof.Machine
end

section
/-! The command word and its decoder: the fields of a word, when a word fits a format, and the round trip between
commands and words (30_encoding.md sections 1 to 3). -/

namespace Sys2Proof

/-! ### The fields of a word -/

/-- A field of a word is 0 when every bit of it is. -/
theorem field_eq_zero_iff (w : Word) (start len : Nat) :
    w.extractLsb' start len = 0 ↔ ∀ k, start ≤ k → k < start + len → w.getLsbD k = false := by
  constructor
  · intro h k hlo hhi
    have hbit : (w.extractLsb' start len).getLsbD (k - start) = false := by simp [h]
    rw [BitVec.getLsbD_extractLsb', Nat.add_sub_cancel' hlo] at hbit
    simpa [show k - start < len by omega] using hbit
  · intro h
    refine BitVec.eq_of_getLsbD_eq fun j hj => ?_
    simp [hj, h (start + j) (by omega) (by omega)]

/-- The word of given fields, bit by bit (30_encoding.md R101). -/
theorem getLsbD_commandWord (op : BitVec 6) (m : Bool) (sa sb : SlotNum) (k : Nat) :
    (commandWord op m sa sb).getLsbD k =
      if k < 6 then op.getLsbD k
      else if k = 6 then m
      else if k < 8 then false
      else if k < 12 then sa.getLsbD (k - 8)
      else if k < 16 then sb.getLsbD (k - 12)
      else false := by
  have hsa (h : 12 ≤ k) : sa.getLsbD (k - 8) = false := BitVec.getLsbD_of_ge _ _ (by omega)
  have hsb (h : 16 ≤ k) : sb.getLsbD (k - 12) = false := BitVec.getLsbD_of_ge _ _ (by omega)
  have hop (h : 6 ≤ k) : op.getLsbD k = false := BitVec.getLsbD_of_ge _ _ h
  have hm : (BitVec.ofBool m).getLsbD (k - 6) = (decide (k - 6 = 0) && m) := BitVec.getLsbD_ofBool ..
  simp only [commandWord, BitVec.getLsbD_or, BitVec.getLsbD_shiftLeft, BitVec.getLsbD_setWidth, hm]
  grind

theorem fieldOP_commandWord (op : BitVec 6) (m : Bool) (sa sb : SlotNum) :
    fieldOP (commandWord op m sa sb) = op := by
  refine BitVec.eq_of_getLsbD_eq fun j hj => ?_
  simp [fieldOP, getLsbD_commandWord, hj]

theorem fieldM_commandWord (op : BitVec 6) (m : Bool) (sa sb : SlotNum) :
    fieldM (commandWord op m sa sb) = m :=
  getLsbD_commandWord op m sa sb 6

theorem fieldSA_commandWord (op : BitVec 6) (m : Bool) (sa sb : SlotNum) :
    fieldSA (commandWord op m sa sb) = sa := by
  refine BitVec.eq_of_getLsbD_eq fun j hj => ?_
  simp [fieldSA, getLsbD_commandWord, hj, show 8 + j < 12 by omega,
    show ¬8 + j < 6 by omega, show 8 + j ≠ 6 by omega]

theorem fieldSB_commandWord (op : BitVec 6) (m : Bool) (sa sb : SlotNum) :
    fieldSB (commandWord op m sa sb) = sb := by
  refine BitVec.eq_of_getLsbD_eq fun j hj => ?_
  simp [fieldSB, getLsbD_commandWord, hj, show 12 + j < 16 by omega,
    show ¬12 + j < 6 by omega, show 12 + j ≠ 6 by omega, show ¬12 + j < 8 by omega]

/-- The reserved bits of a word are 0: bit 7 and bits [31:16] (30_encoding.md R101). -/
def ReservedZero (w : Word) : Prop := w.getLsbD 7 = false ∧ w.extractLsb' 16 16 = 0

theorem reservedZero_commandWord (op : BitVec 6) (m : Bool) (sa sb : SlotNum) :
    ReservedZero (commandWord op m sa sb) := by
  obtain ⟨h7, hhigh⟩ := Laws.ReservedBitsZero.commandWord_reserved op m sa sb
  exact ⟨h7, (field_eq_zero_iff _ 16 16).2 fun k hk _ => hhigh k hk⟩

/-- A word whose reserved bits are 0 is the word of its fields. -/
theorem commandWord_fields {w : Word} (h : ReservedZero w) :
    commandWord (fieldOP w) (fieldM w) (fieldSA w) (fieldSB w) = w := by
  obtain ⟨h7, hhigh⟩ := h
  rw [field_eq_zero_iff] at hhigh
  refine BitVec.eq_of_getLsbD_eq fun k hk => ?_
  rw [getLsbD_commandWord]
  simp only [fieldOP, fieldM, fieldSA, fieldSB, BitVec.getLsbD_extractLsb']
  split_ifs with h6 hm h8 h12 h16
  · simp [h6]
  · rw [hm]
  · rw [show k = 7 by omega, h7]
  · simp [show k - 8 < 4 by omega, show 8 + (k - 8) = k by omega]
  · simp [show k - 12 < 4 by omega, show 12 + (k - 12) = k by omega]
  · rw [hhigh k (by omega) hk]

/-! ### Formats -/

/-- The fields that a format does not use are 0 (30_encoding.md R102). -/
def Format.UnusedZero (fmt : Format) (m : Bool) (sa sb : SlotNum) : Prop :=
  (Machine.usesM fmt = false → m = false) ∧ (fmt.usesSA = false → sa = 0) ∧ (fmt.usesSB = false → sb = 0)

@[simp] theorem Format.unusedZero_n {m : Bool} {sa sb : SlotNum} :
    Format.n.UnusedZero m sa sb ↔ m = false ∧ sa = 0 ∧ sb = 0 := by
  simp [Format.UnusedZero, Machine.usesM, Format.usesSA, Format.usesSB]

@[simp] theorem Format.unusedZero_s {m : Bool} {sa sb : SlotNum} :
    Format.s.UnusedZero m sa sb ↔ m = false ∧ sb = 0 := by
  simp [Format.UnusedZero, Machine.usesM, Format.usesSA, Format.usesSB]

@[simp] theorem Format.unusedZero_sm {m : Bool} {sa sb : SlotNum} :
    Format.sm.UnusedZero m sa sb ↔ sb = 0 := by
  simp [Format.UnusedZero, Machine.usesM, Format.usesSA, Format.usesSB]

@[simp] theorem Format.unusedZero_ssm {m : Bool} {sa sb : SlotNum} : Format.ssm.UnusedZero m sa sb := by
  simp [Format.UnusedZero, Machine.usesM, Format.usesSA, Format.usesSB]

@[simp] theorem Format.unusedZero_ss {m : Bool} {sa sb : SlotNum} :
    Format.ss.UnusedZero m sa sb ↔ m = false := by
  simp [Format.UnusedZero, Machine.usesM, Format.usesSA, Format.usesSB]

/-- The slot fields of a format, SA first (30_encoding.md R102). -/
def Format.slots (fmt : Format) (sa sb : SlotNum) : List SlotNum :=
  (if fmt.usesSA then [sa] else []) ++ (if fmt.usesSB then [sb] else [])

/-- The fixed bits of a format are OP, the reserved bits, and the fields it does not use
(30_encoding.md R102). -/
theorem Format.getLsbD_mask (fmt : Format) {k : Nat} (hk : k < 32) :
    fmt.mask.getLsbD k = true ↔ k < 6 ∨ k = 7 ∨ 16 ≤ k ∨ (k = 6 ∧ Machine.usesM fmt = false) ∨
      (8 ≤ k ∧ k < 12 ∧ fmt.usesSA = false) ∨ (12 ≤ k ∧ k < 16 ∧ fmt.usesSB = false) := by
  have hall : ∀ k : Fin 32, fmt.mask.getLsbD k = true ↔
      k.val < 6 ∨ k.val = 7 ∨ 16 ≤ k.val ∨ (k.val = 6 ∧ Machine.usesM fmt = false) ∨
      (8 ≤ k.val ∧ k.val < 12 ∧ fmt.usesSA = false) ∨ (12 ≤ k.val ∧ k.val < 16 ∧ fmt.usesSB = false) := by
    cases fmt <;> decide
  exact hall ⟨k, hk⟩

/-- A word meets its format's `match` when every fixed bit above OP is 0 (30_encoding.md R102). -/
theorem masked_iff_bits (fmt : Format) (w : Word) :
    w &&& fmt.mask = (fieldOP w).setWidth 32 ↔
      ∀ k, 6 ≤ k → k < 32 → fmt.mask.getLsbD k = true → w.getLsbD k = false := by
  have hop (k : Nat) (hk : k < 32) :
      ((fieldOP w).setWidth 32).getLsbD k = (decide (k < 6) && w.getLsbD k) := by
    simp [fieldOP, BitVec.getLsbD_extractLsb', hk]
  constructor
  · intro h k h6 hk hmask
    have hbit : (w &&& fmt.mask).getLsbD k = false := by rw [h, hop k hk]; simp [h6]
    simpa [hmask] using hbit
  · intro h
    refine BitVec.eq_of_getLsbD_eq fun k hk => ?_
    rw [BitVec.getLsbD_and, hop k hk]
    by_cases h6 : k < 6
    · simp [h6, (fmt.getLsbD_mask hk).2 (.inl h6)]
    · cases hmask : fmt.mask.getLsbD k with
      | false => simp [h6]
      | true => simp [h6, h k (by omega) hk hmask]

/-- A word meets its format's `match` when its reserved bits and its unused fields are 0
(30_encoding.md R102, R104). -/
theorem masked_iff (fmt : Format) (w : Word) :
    w &&& fmt.mask = (fieldOP w).setWidth 32 ↔
      ReservedZero w ∧ fmt.UnusedZero (fieldM w) (fieldSA w) (fieldSB w) := by
  rw [masked_iff_bits, ReservedZero, Format.UnusedZero, fieldSA, fieldSB, field_eq_zero_iff,
    field_eq_zero_iff, field_eq_zero_iff]
  constructor
  · intro h
    have hbit {k : Nat} (h6 : 6 ≤ k) (hk : k < 32) (hfix : _) := h k h6 hk ((fmt.getLsbD_mask hk).2 hfix)
    exact ⟨⟨hbit (by decide) (by decide) (by simp), fun k hlo hhi => hbit (by omega) hhi (by simp [hlo])⟩,
      fun hm => hbit (by decide) (by decide) (by simp [hm]),
      fun hsa k hlo hhi => hbit (by omega) (by omega) (by simp [hsa]; omega),
      fun hsb k hlo hhi => hbit (by omega) (by omega) (by simp [hsb]; omega)⟩
  · rintro ⟨⟨h7, hhigh⟩, hm, hsa, hsb⟩ k h6 hk hmask
    rcases (fmt.getLsbD_mask hk).1 hmask with hop | rfl | hlo | ⟨rfl, hu⟩ | ⟨hlo, hhi, hu⟩ | ⟨hlo, hhi, hu⟩
    · omega
    · exact h7
    · exact hhigh k hlo hk
    · exact hm hu
    · exact hsa hu k hlo hhi
    · exact hsb hu k hlo hhi

/-- Every slot that a format uses exists (30_encoding.md R104). -/
theorem Format.forall_mem_slots {fmt : Format} {sa sb : SlotNum} {p : Params} :
    (∀ f ∈ fmt.slots sa sb, f.toNat < p.numSlots) ↔
      (fmt.usesSA = true → sa.toNat < p.numSlots) ∧ (fmt.usesSB = true → sb.toNat < p.numSlots) := by
  cases hsa : fmt.usesSA <;> cases hsb : fmt.usesSB <;> simp [Format.slots, hsa, hsb]

/-! ### The opcode map -/

/-- The command a row of the opcode map makes of fields that fit its format has those fields: they are its word,
and its slots (30_encoding.md R102, R103). -/
theorem opcodeMap_row {op : BitVec 6} {fmt : Format} {build : Bool → SlotNum → SlotNum → Instr}
    (h : opcodeMap op = some (fmt, build)) {m : Bool} {sa sb : SlotNum} (hz : fmt.UnusedZero m sa sb) :
    encode (build m sa sb) = commandWord op m sa sb ∧ (build m sa sb).slotFields = fmt.slots sa sb := by
  have op_eq {n : Nat} (hop : op.toNat = n) : op = BitVec.ofNat 6 n := by simp [← hop]
  unfold opcodeMap at h
  split at h
  case h_24 => exact absurd h nofun
  all_goals
    rename_i hop
    obtain rfl := op_eq hop
    obtain ⟨rfl, rfl⟩ := Prod.mk.inj (Option.some.inj h)
    revert hz
    simp +contextual [encode, Instr.slotFields, Format.slots, Format.usesSA, Format.usesSB]

/-- Every command stands in the opcode map: a row makes it of fields that fit the row's format
(30_encoding.md R103). -/
theorem exists_opcodeMap_row (i : Instr) : ∃ op fmt build m sa sb,
    opcodeMap op = some (fmt, build) ∧ fmt.UnusedZero m sa sb ∧ build m sa sb = i := by
  cases i with
  | nop => exact ⟨0x00, .n, _, false, 0, 0, rfl, by simp, rfl⟩
  | loadb m sa => exact ⟨0x01, .sm, _, m, sa, 0, rfl, by simp, rfl⟩
  | load8 m sa => exact ⟨0x02, .sm, _, m, sa, 0, rfl, by simp, rfl⟩
  | load16 m sa => exact ⟨0x03, .sm, _, m, sa, 0, rfl, by simp, rfl⟩
  | load32 m sa => exact ⟨0x04, .sm, _, m, sa, 0, rfl, by simp, rfl⟩
  | load64 m sa => exact ⟨0x05, .sm, _, m, sa, 0, rfl, by simp, rfl⟩
  | load128 m sa => exact ⟨0x06, .sm, _, m, sa, 0, rfl, by simp, rfl⟩
  | copy m sa sb => exact ⟨0x07, .ssm, _, m, sa, sb, rfl, by simp, rfl⟩
  | free sa => exact ⟨0x08, .s, _, false, sa, 0, rfl, by simp, rfl⟩
  | get sa => exact ⟨0x10, .s, _, false, sa, 0, rfl, by simp, rfl⟩
  | set sa => exact ⟨0x11, .s, _, false, sa, 0, rfl, by simp, rfl⟩
  | slice sa => exact ⟨0x12, .s, _, false, sa, 0, rfl, by simp, rfl⟩
  | count sa => exact ⟨0x13, .s, _, false, sa, 0, rfl, by simp, rfl⟩
  | nbytes sa => exact ⟨0x14, .s, _, false, sa, 0, rfl, by simp, rfl⟩
  | exportAll sa => exact ⟨0x15, .s, _, false, sa, 0, rfl, by simp, rfl⟩
  | exportLogical sa => exact ⟨0x16, .s, _, false, sa, 0, rfl, by simp, rfl⟩
  | eq sa sb => exact ⟨0x17, .ss, _, false, sa, sb, rfl, by simp, rfl⟩
  | padd => exact ⟨0x20, .n, _, false, 0, 0, rfl, by simp, rfl⟩
  | paddb => exact ⟨0x21, .n, _, false, 0, 0, rfl, by simp, rfl⟩
  | padd8 => exact ⟨0x22, .n, _, false, 0, 0, rfl, by simp, rfl⟩
  | padd16 => exact ⟨0x23, .n, _, false, 0, 0, rfl, by simp, rfl⟩
  | pbuild m sa => exact ⟨0x24, .sm, _, m, sa, 0, rfl, by simp, rfl⟩
  | pclear => exact ⟨0x25, .n, _, false, 0, 0, rfl, by simp, rfl⟩

/-- The formats of the opcode map, by OP: a reserved OP has none (30_encoding.md R103, R105). -/
theorem opcodeMap_formats : ∀ op : BitVec 6, ∀ fmt ∈ (opcodeMap op).map Prod.fst,
    (op.toNat < 0x09 ∨ 0x10 ≤ op.toNat ∧ op.toNat < 0x18 ∨ 0x20 ≤ op.toNat ∧ op.toNat < 0x26) ∧
      (Machine.usesM fmt = true ↔ op.toNat ∈ [0x01, 0x02, 0x03, 0x04, 0x05, 0x06, 0x07, 0x24]) ∧
      (fmt.usesSA = false ↔ op.toNat ∈ [0x00, 0x20, 0x21, 0x22, 0x23, 0x25]) ∧
      (fmt.usesSB = true ↔ op.toNat ∈ [0x07, 0x17]) := by
  decide

/-! ### The decoder -/

/-- The whole of decoding, once: OP stands in the opcode map, the word fits its format, its slots exist, and the
command is the one the map makes of its fields (30_encoding.md R104). -/
theorem decode_ok_iff {p : Params} {w : Word} {i : Instr} :
    decode p w = .ok i ↔ ∃ fmt build, opcodeMap (fieldOP w) = some (fmt, build) ∧
      ReservedZero w ∧ fmt.UnusedZero (fieldM w) (fieldSA w) (fieldSB w) ∧
      (∀ f ∈ fmt.slots (fieldSA w) (fieldSB w), f.toNat < p.numSlots) ∧
      build (fieldM w) (fieldSA w) (fieldSB w) = i := by
  unfold decode
  cases hrow : opcodeMap (fieldOP w) with
  | none => simp
  | some row =>
    obtain ⟨fmt, build⟩ := row
    have hfmt := masked_iff fmt w
    simp only [Format.forall_mem_slots]
    split_ifs <;> grind

/-- Settles O1: the command's fields are those of its word, at which its row of the opcode map stands. -/
theorem decodeOfEncode : Obligations.DecodeOfEncode := by
  intro p i hi
  obtain ⟨op, fmt, build, m, sa, sb, hrow, hz, rfl⟩ := exists_opcodeMap_row i
  obtain ⟨hword, hslots⟩ := opcodeMap_row hrow hz
  rw [Instr.wellFormed, hslots] at hi
  rw [hword, decode_ok_iff, fieldOP_commandWord, fieldM_commandWord, fieldSA_commandWord, fieldSB_commandWord]
  exact ⟨fmt, build, hrow, reservedZero_commandWord op m sa sb, hz, hi, rfl⟩

/-- Settles O2: the decoded command has the word's fields, and the word has no bit beside them. -/
theorem encodeOfDecode : Obligations.EncodeOfDecode := by
  intro p w i h
  obtain ⟨fmt, build, hrow, hres, hz, hslots, rfl⟩ := decode_ok_iff.1 h
  obtain ⟨hword, hfields⟩ := opcodeMap_row hrow hz
  exact ⟨hword.trans (commandWord_fields hres), by rwa [Instr.wellFormed, hfields]⟩

/-- A word that decodes is none of the words that 30_encoding.md R105 names. -/
theorem not_illegalWord_of_decode {p : Params} {w : Word} {i : Instr} (h : decode p w = .ok i) :
    ¬Machine.IllegalWord p.numSlots w := by
  obtain ⟨fmt, build, hrow, ⟨h7, hhigh⟩, ⟨hm, hsa, hsb⟩, hslots, -⟩ := decode_ok_iff.1 h
  obtain ⟨hop, hM, hSA, hSB⟩ := opcodeMap_formats (fieldOP w) fmt (by simp [hrow])
  obtain ⟨hslotA, hslotB⟩ := Format.forall_mem_slots.1 hslots
  simp only [fieldOP] at hop
  rintro (hr | hr | hr | h7' | hhigh' | ⟨hset, hno⟩ | ⟨hset, hno⟩ | ⟨hset, hno⟩ | ⟨hge, huse⟩ | ⟨hge, huse⟩)
  · omega
  · omega
  · omega
  · exact Bool.false_ne_true (h7.symm.trans h7')
  · exact hhigh' hhigh
  · exact Bool.false_ne_true ((hm (Bool.eq_false_iff.2 (mt hM.1 hno))).symm.trans hset)
  · exact hset (congrArg BitVec.toNat (hsa (hSA.2 hno)))
  · exact hset (congrArg BitVec.toNat (hsb (Bool.eq_false_iff.2 (mt hSB.1 hno))))
  · exact absurd (hslotA (Bool.eq_true_of_not_eq_false (mt hSA.1 huse))) (Nat.not_lt.2 hge)
  · exact absurd (hslotB (hSB.2 huse)) (Nat.not_lt.2 hge)

end Sys2Proof
end

section
/-! What a host gets by the encoding: words that are no command, the script line of a command, and where a command
puts its results (30_encoding.md R105, R107, R109). -/

namespace Sys2Proof.Machine

/-- The step on a CMD write of a word that is no command raises IllegalCommand (30_encoding.md R105). -/
theorem step_illegal_word {s : State} {rest : List PortEvent} {w : Word}
    (h : s.port = .access ⟨s.params.base + Reg.cmd.offset, 32, .write w⟩ :: rest)
    (hw : IllegalWord s.params.numSlots w) :
    step s = .next { s with port := rest, err := .illegalCommand, replies := .written :: s.replies } := by
  rw [step_cmd_write h]
  rcases runCommand_cases w { s with port := rest } with ⟨i, hdec, -⟩ | ⟨-, -, hrun⟩
  · exact absurd hw (not_illegalWord_of_decode hdec)
  · rw [hrun]
    rfl

/-- Settles O3: a word that R105 names does not decode, and a word that decodes to NOP is NOP's. -/
theorem illegalWordRaises : Obligations.IllegalWordRaises :=
  ⟨fun _ _ _ hport hw => step_illegal_word hport hw, fun p w h => (encodeOfDecode p w .nop h).1.symm⟩

/-- Settles O6: the line writes the command's word to CMD, which decodes to the command. -/
theorem scriptCommandRuns : Obligations.ScriptCommandRuns := by
  intro s rest i hport hi
  have hdec : decode s.params (encode i) = .ok i := decodeOfEncode s.params i hi
  obtain ⟨t, ht, -⟩ := exec_effect i { s with port := rest }
  refine ⟨t, ht, ?_⟩
  rw [stepRunsDecodedCommand s rest (encode i) i hport hdec, ht]
  rfl

/-- A command that does not write DATA keeps it whole. -/
theorem Effect.data_eq {i : Instr} {s t : State} (h : Effect i s t) (hi : i.writesData = false) :
    t.data = s.data := by
  rcases h.data with e | ⟨hw, -⟩
  · exact e
  · simp [hi] at hw

/-- Settles O30, from the command's `Effect`. -/
theorem commandsWriteOnlyTheirRegisters : Obligations.CommandsWriteOnlyTheirRegisters := by
  intro i s
  obtain ⟨t, ht, heff⟩ := exec_effect i s
  exact ⟨t, ht, heff.operands, heff.result, heff.result2, heff.data_eq⟩

/-- Settles O4 by running the decoder on each word. -/
theorem decodeSampleWords : Obligations.DecodeSampleWords := by
  unfold Obligations.DecodeSampleWords
  decide

end Sys2Proof.Machine
end

section
/-! The construction commands: a slot built from DATA, from VAL or from another slot, and a slot emptied
(40_store_construction.md). -/

namespace Sys2Proof.Machine

/-! ### A command that completes by replacing one slot -/

/-- A slot number below `NUM_SLOTS` names a slot of the list. -/
theorem State.Inv.lt_slots_length {s : State} (hs : s.Inv) {sa : SlotNum} (h : sa.toNat < s.params.numSlots) :
    sa.toNat < s.slots.length := by
  obtain ⟨-, hlen, -⟩ := hs
  omega

/-- Replacing slot `sa` and completing leaves the new slot there and keeps everything else
(10_state.md R37). -/
theorem complete_setSlot {s : State} {sa : SlotNum} (x : Slot) (hsa : sa.toNat < s.slots.length) :
    ∃ t, complete (s.setSlot sa x) = .next t ∧ t.err = .ok ∧ OnlySlot sa s t ∧ t.slot sa = x :=
  ⟨{ s.setSlot sa x with err := .ok }, rfl, rfl,
    ⟨⟨rfl, rfl, rfl, rfl, rfl, rfl, rfl, rfl, rfl⟩, ⟨rfl, rfl⟩, fun _ => rfl, rfl,
      State.setSlot_keepsSlotsBut s sa x⟩,
    State.slot_setSlot_same x hsa⟩

/-- A construction from 1 to `MAX_BYTES` bytes completes with the built slot in `sa`
(40_store_construction.md R130). -/
theorem conclude_construct {s : State} {sa : SlotNum} {bs : List Byte} (m : Bool)
    (hsa : sa.toNat < s.slots.length) (h0 : bs.length ≠ 0) (hfit : bs.length ≤ s.params.maxBytes) :
    ∃ t, conclude s (construct sa bs m s) = .next t ∧ t.err = .ok ∧ OnlySlot sa s t ∧
      t.slot sa = builtSlot bs m := by
  rw [construct_of_fits h0 hfit, conclude_ok]
  exact complete_setSlot _ hsa

/-- Settles O38: FREE replaces its slot by the empty one. -/
theorem freeEmptiesSlot : Obligations.FreeEmptiesSlot :=
  fun _ _ hsa => complete_setSlot Slot.empty hsa

/-! ### LOADB -/

theorem exec_loadb_of_zero {s : State} (m : Bool) (sa : SlotNum) (h : s.opa.toNat = 0) :
    exec (.loadb m sa) s = .next { s with err := .invalidArgument } := by
  rw [exec, execLoadb, if_pos h, raise]

theorem exec_loadb_of_long {s : State} (m : Bool) (sa : SlotNum) (h0 : s.opa.toNat ≠ 0)
    (h : s.params.maxBytes < s.opa.toNat) : exec (.loadb m sa) s = .next { s with err := .capacity } := by
  rw [exec, execLoadb, if_neg h0, if_pos h, raise]

theorem exec_loadb_of_fits {s : State} (m : Bool) (sa : SlotNum) (h0 : s.opa.toNat ≠ 0)
    (h : s.opa.toNat ≤ s.params.maxBytes) :
    exec (.loadb m sa) s = conclude s (construct sa (s.data.readBytes 0 s.opa.toNat) m s) := by
  rw [exec, execLoadb, if_neg h0, if_neg (Nat.not_lt.2 h)]

/-- Byte `k` of a slot built from the first `n` bytes of DATA (40_store_construction.md R131). -/
theorem builtSlot_readBytes_byte (d : Memory) (n : Nat) (m : Bool) (k : Nat) :
    (builtSlot (d.readBytes 0 n) m).byte k = if k < n then d.read k else 0x00 := by
  rw [builtSlot_byte]
  split
  · rename_i hk
    rw [Memory.getD_readBytes d 0 n k hk, Nat.zero_add]
  · rename_i hk
    exact List.getD_eq_default _ _ (by simpa using hk)

/-- Settles O35: a case per range of OPA; the last one is a construction from DATA. -/
theorem loadbBuildsFromData : Obligations.LoadbBuildsFromData := by
  intro s m sa hs hsa
  split
  · rename_i hzero
    exact exec_loadb_of_zero m sa hzero
  · rename_i hpos
    split
    · rename_i hlong
      exact exec_loadb_of_long m sa hpos hlong
    · rename_i hfit
      obtain ⟨t, ht, herr, honly, hslot⟩ := conclude_construct (bs := s.data.readBytes 0 s.opa.toNat) m
        (hs.lt_slots_length hsa) (by simpa using hpos) (by simpa using hfit)
      refine ⟨t, (exec_loadb_of_fits m sa hpos (Nat.not_lt.1 hfit)).trans ht, herr, honly, ?_⟩
      rw [hslot]
      exact ⟨rfl, rfl, by simp, by simp, builtSlot_readBytes_byte s.data _ m⟩

/-! ### LOAD8 to LOAD128 -/

/-- Two words side by side as a number: the left one stands above the right one's bits. -/
theorem toNat_append_eq_add {n w : Nat} (x : BitVec n) (y : BitVec w) :
    (x ++ y).toNat = 2 ^ w * x.toNat + y.toNat := by
  rw [BitVec.toNat_append, ← Nat.shiftLeft_add_eq_or_of_lt y.isLt, Nat.shiftLeft_eq, Nat.mul_comm]

/-- VAL as the number its four words make (10_state.md R46). -/
theorem State.val128_toNat (s : State) : s.val128.toNat =
    s.val0.toNat + 2 ^ 32 * s.val1.toNat + 2 ^ 64 * s.val2.toNat + 2 ^ 96 * s.val3.toNat := by
  simp only [State.val128, toNat_append_eq_add]
  omega

/-- VAL[63:0] is the low half of VAL (10_state.md R46). -/
theorem State.val64_toNat (s : State) : s.val64.toNat = s.val128.toNat % 2 ^ 64 := by
  rw [State.val128_toNat, State.val64, toNat_append_eq_add]
  omega

/-- VAL0 is the low word of VAL (10_state.md R46). -/
theorem State.val0_toNat (s : State) : s.val0.toNat = s.val128.toNat % 2 ^ 32 := by
  rw [State.val128_toNat]
  omega

/-- A slot built from the low `n` bytes of the low `w` bits of a number holds, bit by bit, the low bytes of the
number (20_memory.md R79). -/
theorem builtSlot_bytesLE_mod_bit {n w : Nat} (hw : 8 * n ≤ w) (v : Nat) (m : Bool) (j : Nat) :
    (builtSlot (bytesLE n (v % 2 ^ w)) m).bit j = (decide (j < 8 * n) && v.testBit j) := by
  rw [builtSlot_bit, bit_bytesLE, Nat.testBit_mod_two_pow]
  by_cases hj : j < 8 * n
  · simp [show j < w by omega]
  · simp [hj]

/-- A construction from the low `n` bytes of VAL, `val` being VAL's low `w` bits (40_store_construction.md R132
to R136). -/
theorem conclude_construct_scalar {s : State} (hs : s.Inv) {sa : SlotNum} (hsa : sa.toNat < s.params.numSlots)
    (m : Bool) {n w val : Nat} (h0 : n ≠ 0) (h16 : n ≤ 16) (hw : 8 * n ≤ w)
    (hval : val = s.val128.toNat % 2 ^ w) :
    ∃ t, conclude s (construct sa (bytesLE n val) m s) = .next t ∧ t.err = .ok ∧ OnlySlot sa s t ∧
      (t.slot sa).valid = true ∧ (t.slot sa).mutable = m ∧ (t.slot sa).n = n ∧
      (t.slot sa).buf.length = max 8 n ∧
      ∀ j, (t.slot sa).bit j = (decide (j < 8 * n) && s.val128.toNat.testBit j) := by
  have hmax : 16 ≤ s.params.maxBytes := by
    obtain ⟨⟨-, ⟨hmax, -⟩, -⟩, -⟩ := hs
    exact hmax
  obtain ⟨t, ht, herr, honly, hslot⟩ := conclude_construct (bs := bytesLE n val) m
    (hs.lt_slots_length hsa) (by simpa using h0) (by rw [length_bytesLE]; omega)
  refine ⟨t, ht, herr, honly, ?_⟩
  rw [hslot, hval]
  exact ⟨rfl, rfl, by simp, by simp, builtSlot_bytesLE_mod_bit hw _ m⟩

/-- Settles O36: each of the five loads is a construction from the low bytes of VAL. -/
theorem loadScalarBuilds : Obligations.LoadScalarBuilds := by
  intro s m sa hs hsa c hc
  rw [← State.val128_toNat]
  simp only [List.mem_cons, List.not_mem_nil, or_false] at hc
  rcases hc with rfl | rfl | rfl | rfl | rfl
  · exact conclude_construct_scalar hs hsa m (by decide) (by decide) (by decide) s.val0_toNat
  · exact conclude_construct_scalar hs hsa m (by decide) (by decide) (by decide) s.val0_toNat
  · exact conclude_construct_scalar hs hsa m (by decide) (by decide) (by decide) s.val0_toNat
  · exact conclude_construct_scalar hs hsa m (by decide) (by decide) (by decide) s.val64_toNat
  · exact conclude_construct_scalar hs hsa m (by decide) (by decide) (by decide)
      (Nat.mod_eq_of_lt s.val128.isLt).symm

/-! ### COPY -/

/-- The buffer bytes of a well-formed store from its logical length on are 0 (10_state.md R34). -/
theorem Slot.byte_padding {x : Slot} {maxBytes k : Nat} (hx : x.wf maxBytes) (hv : x.valid = true)
    (hk : x.n ≤ k) : x.byte k = 0x00 := by
  obtain ⟨-, -, hlen, hpad⟩ := hx.1 hv
  by_cases h8 : k < 8
  · exact hpad k h8 hk
  · exact List.getD_eq_default _ _ (by rw [hlen, Slot.bufLen]; omega)

/-- Slots with buffers of one length and the same bytes have the same buffer. -/
theorem Slot.buf_eq_of_byte {x y : Slot} (hlen : x.buf.length = y.buf.length) (h : ∀ k, x.byte k = y.byte k) :
    x.buf = y.buf := by
  refine List.ext_getElem hlen fun k hx hy => ?_
  have hk := h k
  rwa [Slot.byte, Slot.byte, List.getD_eq_getElem _ _ hx, List.getD_eq_getElem _ _ hy] at hk

/-- A slot built from the logical bytes of a well-formed store has that store's whole buffer: the padding is 0 in
both (10_state.md R33, R34). -/
theorem builtSlot_bytes_buf {x : Slot} {maxBytes : Nat} (hx : x.wf maxBytes) (hv : x.valid = true) (m : Bool) :
    (builtSlot (x.bytes 0 x.n) m).buf = x.buf := by
  obtain ⟨-, -, hlen, -⟩ := hx.1 hv
  refine Slot.buf_eq_of_byte (by simp [hlen, Slot.bufLen]) fun k => ?_
  rw [builtSlot_byte, Slot.getD_bytes, Nat.zero_add]
  split
  · rfl
  · rename_i hk
    exact (Slot.byte_padding hx hv (Nat.not_lt.1 hk)).symm

theorem exec_copy_of_empty {s : State} {sb : SlotNum} (m : Bool) (sa : SlotNum) (h : (s.slot sb).valid = false) :
    exec (.copy m sa sb) s = .next { s with err := .noStore } := by
  rw [exec, execCopy, if_pos h, raise]

theorem exec_copy_of_valid {s : State} {sb : SlotNum} (m : Bool) (sa : SlotNum) (h : (s.slot sb).valid ≠ false) :
    exec (.copy m sa sb) s =
      conclude s (construct sa ((s.slot sb).bytes 0 (s.slot sb).n) m s) := by
  rw [exec, execCopy, if_neg h]

/-- Settles O37: COPY of a store is a construction from its logical bytes, which the invariant bounds. -/
theorem copyIsDeep : Obligations.CopyIsDeep := by
  intro s m sa sb hs hsa _
  split
  · rename_i hempty
    exact exec_copy_of_empty m sa hempty
  · rename_i hne
    have hv : (s.slot sb).valid = true := by simpa using hne
    have hwf : (s.slot sb).wf s.params.maxBytes := State.slot_wf hs sb
    obtain ⟨hpos, hfit, -⟩ := hwf.1 hv
    obtain ⟨t, ht, herr, honly, hslot⟩ := conclude_construct (bs := (s.slot sb).bytes 0 (s.slot sb).n) m
      (hs.lt_slots_length hsa) (by rw [Slot.length_bytes]; omega) (by rwa [Slot.length_bytes])
    refine ⟨t, (exec_copy_of_valid m sa hne).trans ht, herr, honly, ?_⟩
    rw [hslot]
    exact ⟨rfl, rfl, by simp, builtSlot_bytes_buf hwf hv m⟩

end Sys2Proof.Machine
end

section
/-! The access commands that read a store: the slot check, the queries and the exports (41_store_access.md). -/

namespace Sys2Proof.Machine

/-! ### Operands and results -/

/-- A bit index inside a store is its own unsigned reading (00_scope.md R17). -/
theorem toNat_of_inside {x : Slot} {w : Word} (h : ¬OutsideStore x w.toInt) :
    w.toInt.toNat = w.toNat ∧ w.toNat < 8 * x.n := by
  rw [not_or] at h
  have hnat : w.toInt = w.toNat := BitVec.toInt_eq_toNat_of_lt (BitVec.toInt_pos_iff.1 (by omega))
  omega

/-- A count that fits a register is what is read of it. -/
theorem u32_toNat {n : Nat} (h : n < 2 ^ 32) : (u32 (n : Int)).toNat = n := by
  rw [u32, BitVec.ofInt_natCast, BitVec.toNat_ofNat, Nat.mod_eq_of_lt h]

/-- A bit of a byte as a word, by the shift and mask of 41_store_access.md R171. -/
theorem bitWord_getLsbD (b : Byte) (j : Nat) : bitWord (b.getLsbD j) = ((b >>> j) &&& 1).setWidth 32 := by
  change _ = ((b >>> j) &&& 1#8).setWidth 32
  rw [BitVec.and_one_eq_setWidth_ofBool_getLsbD, BitVec.getLsbD_ushiftRight, Nat.add_zero]
  cases b.getLsbD j <;> rfl

/-- The bits of a valid store are few enough for a register read as a signed number (00_scope.md R12). -/
theorem State.Inv.bitCount_lt {s : State} (hs : s.Inv) {sa : SlotNum} (hv : (s.slot sa).valid = true) :
    8 * (s.slot sa).n < 2 ^ 31 := by
  obtain ⟨-, hn, -⟩ := (State.slot_wf hs sa).1 hv
  obtain ⟨⟨-, ⟨-, hmax, -⟩, -⟩, -⟩ := hs
  omega

/-- The slot check of 41_store_access.md R170: a command that reads an empty receiver raises NoStore. -/
theorem exec_of_empty_receiver {i : Instr} {s : State} {sa : SlotNum} (hi : i.receiver = some sa)
    (hv : (s.slot sa).valid = false) : exec i s = .next { s with err := .noStore } := by
  cases i <;> simp only [Instr.receiver, reduceCtorEq, Option.some.injEq] at hi
  all_goals
    subst hi
    exact if_pos hv

/-- Writing RESULT and completing changes nothing else. -/
theorem complete_result (s : State) (w : Word) :
    ∃ t, complete { s with result := w } = .next t ∧ t.err = .ok ∧ OnlyResult s t ∧ t.result = w :=
  ⟨_, rfl, rfl, ⟨⟨rfl, rfl, rfl, rfl, rfl, rfl, rfl, rfl, rfl⟩, rfl, fun _ => rfl, rfl, rfl⟩, rfl⟩

/-! ### COUNT and NBYTES -/

/-- Completing with a count that fits RESULT. -/
theorem complete_count (s : State) {n : Nat} (h : n < 2 ^ 32) :
    ∃ t, complete { s with result := u32 (n : Int) } = .next t ∧ t.err = .ok ∧ OnlyResult s t ∧
      t.result.toNat = n := by
  obtain ⟨t, ht, herr, honly, hres⟩ := complete_result s (u32 (n : Int))
  exact ⟨t, ht, herr, honly, by rw [hres, u32_toNat h]⟩

theorem exec_count_of_valid {s : State} {sa : SlotNum} (hv : (s.slot sa).valid ≠ false) :
    exec (.count sa) s = complete { s with result := u32 ((8 * (s.slot sa).n : Nat) : Int) } :=
  if_neg hv

theorem exec_nbytes_of_valid {s : State} {sa : SlotNum} (hv : (s.slot sa).valid ≠ false) :
    exec (.nbytes sa) s = complete { s with result := u32 ((s.slot sa).n : Int) } :=
  if_neg hv

/-- Settles O45: both queries write a count that fits RESULT. -/
theorem sizeQueries : Obligations.SizeQueries := by
  intro s sa hs _ c hc
  simp only [List.mem_cons, List.not_mem_nil, or_false] at hc
  split
  · rename_i hempty
    rcases hc with rfl | rfl
    · exact exec_of_empty_receiver rfl hempty
    · exact exec_of_empty_receiver rfl hempty
  · rename_i hne
    have hfit := hs.bitCount_lt (Bool.eq_true_of_not_eq_false hne)
    rcases hc with rfl | rfl
    · rw [exec_count_of_valid hne]
      exact complete_count s (by omega)
    · rw [exec_nbytes_of_valid hne]
      exact complete_count s (by omega)

/-! ### EXPORT and EXPORTL -/

theorem exec_exportAll_of_valid {s : State} {sa : SlotNum} (hv : (s.slot sa).valid ≠ false) :
    exec (.exportAll sa) s = complete { s with
      data := s.data.writeBytes 0 ((s.slot sa).bytes 0 (max 8 (s.slot sa).n))
      result := u32 ((max 8 (s.slot sa).n : Nat) : Int) } :=
  if_neg hv

theorem exec_exportLogical_of_valid {s : State} {sa : SlotNum} (hv : (s.slot sa).valid ≠ false) :
    exec (.exportLogical sa) s = complete { s with
      data := s.data.writeBytes 0 ((s.slot sa).bytes 0 (s.slot sa).n)
      result := u32 ((s.slot sa).n : Int) } :=
  if_neg hv

/-- DATA after the first `n` bytes of a buffer were written at byte 0. -/
theorem Memory.read_writeBytes_bytes {d : Memory} (hd : d.wf) (x : Slot) (n k : Nat) :
    (d.writeBytes 0 (x.bytes 0 n)).read k = if k < n then x.byte k else d.read k := by
  rw [Memory.read_writeBytes hd, Slot.length_bytes, Slot.getD_bytes]
  by_cases hk : k < n
  · simp [hk]
  · simp [hk]

/-- Settles O46: both exports write the first bytes of the buffer, and their number fits RESULT. -/
theorem exportsWriteData : Obligations.ExportsWriteData := by
  intro s sa hs _ c hc
  have ⟨_, _, _, _, hdata, _⟩ := hs
  simp only [List.mem_cons, List.not_mem_nil, or_false] at hc
  split
  · rename_i hempty
    rcases hc with rfl | rfl
    · exact exec_of_empty_receiver rfl hempty
    · exact exec_of_empty_receiver rfl hempty
  · rename_i hne
    have hfit := hs.bitCount_lt (Bool.eq_true_of_not_eq_false hne)
    have hread := Memory.read_writeBytes_bytes hdata (s.slot sa) c.2
    rcases hc with rfl | rfl
    · exact ⟨_, exec_exportAll_of_valid hne, rfl, u32_toNat (by omega), hread,
        ⟨rfl, rfl, rfl, rfl, rfl, rfl, rfl, rfl, rfl⟩, rfl, rfl, rfl⟩
    · exact ⟨_, exec_exportLogical_of_valid hne, rfl, u32_toNat (by omega), hread,
        ⟨rfl, rfl, rfl, rfl, rfl, rfl, rfl, rfl, rfl⟩, rfl, rfl, rfl⟩

/-- Settles O47: LOADB builds the slot whose logical bytes EXPORTL writes. -/
theorem loadbExportlRoundTrip : Obligations.LoadbExportlRoundTrip := by
  intro s m sa d hs hsa hpos hfit hd
  obtain ⟨t, ht, herr, -, hslot⟩ := conclude_construct (bs := s.data.readBytes 0 s.opa.toNat) m
    (hs.lt_slots_length hsa) (by rw [Memory.length_readBytes]; omega) (by simpa using hfit)
  have hslot' : State.slot { t with data := d } sa = builtSlot (s.data.readBytes 0 s.opa.toNat) m := hslot
  have hexec := exec_exportLogical_of_valid (s := { t with data := d }) (sa := sa) (by simp [hslot'])
  rw [hslot', builtSlot_n, Memory.length_readBytes] at hexec
  refine ⟨t, _, (exec_loadb_of_fits m sa (by omega) hfit).trans ht, herr, hexec, rfl, ?_, fun k => ?_⟩
  · exact BitVec.eq_of_toNat_eq (u32_toNat s.opa.isLt)
  · refine (Memory.read_writeBytes_bytes hd _ _ k).trans ?_
    rw [builtSlot_readBytes_byte]
    split <;> rfl

/-! ### EQ -/

/-- EQ of a read-only receiver with a read-only comparand compares their logical bytes; so it does too where both
are one slot (41_store_access.md R200). -/
theorem exec_eq_of_readOnly {s : State} {sa sb : SlotNum} (hv : (s.slot sa).valid ≠ false)
    (hm : (s.slot sa).mutable ≠ true) (hv' : (s.slot sb).valid ≠ false) (hm' : (s.slot sb).mutable ≠ true) :
    exec (.eq sa sb) s = complete { s with
      result := bitWord (decide ((s.slot sa).n = (s.slot sb).n) &&
        decide ((s.slot sa).bytes 0 (s.slot sa).n = (s.slot sb).bytes 0 (s.slot sa).n)) } := by
  rw [exec, execEq, if_neg hv, if_neg hm, if_neg hv', if_neg hm']
  split
  · rename_i hsame
    subst hsame
    simp [bitWord]
  · rfl

/-- Byte runs of one length are equal when they agree byte by byte. -/
theorem Slot.bytes_eq_iff (x y : Slot) (n : Nat) :
    x.bytes 0 n = y.bytes 0 n ↔ ∀ k, k < n → x.byte k = y.byte k := by
  simp [Slot.bytes]

theorem bitWord_eq_one_iff (b : Bool) : bitWord b = 1 ↔ b = true := by
  cases b <;> simp [bitWord]

theorem bitWord_eq_zero_or_one (b : Bool) : bitWord b = 0 ∨ bitWord b = 1 := by
  cases b
  · exact .inl rfl
  · exact .inr rfl

/-- Settles O48: the checks in their order, then the comparison of the logical bytes. -/
theorem eqComparesLogicalBytes : Obligations.EqComparesLogicalBytes := by
  intro s sa sb _ _ _
  split
  · rename_i hempty
    exact exec_of_empty_receiver rfl hempty
  rename_i hv
  split
  · rename_i hmut
    exact (if_neg hv).trans (if_pos hmut)
  rename_i hm
  split
  · rename_i hempty
    exact (if_neg hv).trans ((if_neg hm).trans (if_pos hempty))
  rename_i hv'
  split
  · rename_i hmut
    exact (if_neg hv).trans ((if_neg hm).trans ((if_neg hv').trans (if_pos hmut)))
  rename_i hm'
  rw [exec_eq_of_readOnly hv hm hv' hm']
  obtain ⟨t, ht, herr, honly, hres⟩ := complete_result s (bitWord (decide ((s.slot sa).n = (s.slot sb).n) &&
    decide ((s.slot sa).bytes 0 (s.slot sa).n = (s.slot sb).bytes 0 (s.slot sa).n)))
  refine ⟨t, ht, herr, honly, ?_, ?_⟩
  · rw [hres]
    exact bitWord_eq_zero_or_one _
  · rw [hres, bitWord_eq_one_iff, Bool.and_eq_true, decide_eq_true_iff, decide_eq_true_iff, Slot.bytes_eq_iff]
    rfl

end Sys2Proof.Machine
end

section
/-! The bits of a store: GET, SET and SLICE (41_store_access.md sections 2 and 3). -/

namespace Sys2Proof.Machine

/-! ### GET -/

theorem exec_get_of_outside {s : State} {sa : SlotNum} (hv : (s.slot sa).valid ≠ false)
    (hi : OutsideStore (s.slot sa) s.opa.toInt) :
    exec (.get sa) s = .next { s with err := .indexOutOfRange } :=
  (if_neg hv).trans (if_pos hi)

theorem exec_get_of_inside {s : State} {sa : SlotNum} (hv : (s.slot sa).valid ≠ false)
    (hi : ¬OutsideStore (s.slot sa) s.opa.toInt) :
    exec (.get sa) s = complete { s with result := bitWord ((s.slot sa).bit s.opa.toInt.toNat) } :=
  (if_neg hv).trans (if_neg hi)

/-- Settles O40: the checks in their order, then the bit by shift and mask. -/
theorem getReadsBit : Obligations.GetReadsBit := by
  intro s sa _ _
  split
  · rename_i hempty
    exact exec_of_empty_receiver rfl hempty
  rename_i hv
  split
  · rename_i hout
    exact exec_get_of_outside hv hout
  · rename_i hin
    obtain ⟨hnat, -⟩ := toNat_of_inside hin
    rw [exec_get_of_inside hv hin, hnat, Slot.bit, bitWord_getLsbD]
    exact complete_result s _

/-! ### SET -/

/-- What SET makes of a byte, bit by bit (41_store_access.md R172). -/
theorem getLsbD_setBit (b : Byte) {j : Nat} (hj : j < 8) (v : Bool) (i : Nat) :
    (setBit b j v).getLsbD i = if i = j then v else b.getLsbD i := by
  have hone : ((1 : Byte) <<< j).getLsbD i = decide (i = j) := by
    change (1#8 <<< j).getLsbD i = _
    rw [← BitVec.twoPow_eq, BitVec.getLsbD_twoPow]
    simp [hj, eq_comm]
  cases v
  · rw [setBit, if_neg Bool.false_ne_true, BitVec.getLsbD_and, BitVec.getLsbD_not, hone]
    by_cases hi : i = j
    · simp [hi]
    · simpa [hi] using BitVec.lt_of_getLsbD
  · rw [setBit, if_pos rfl, BitVec.getLsbD_or, hone]
    by_cases hi : i = j
    · simp [hi]
    · simp [hi]

/-- Byte `k` of a slot after a byte of its buffer was replaced. -/
theorem Slot.byte_set {x : Slot} {j : Nat} (hj : j < x.buf.length) (b : Byte) (k : Nat) :
    Slot.byte { x with buf := x.buf.set j b } k = if k = j then b else x.byte k := by
  by_cases hk : k = j
  · simp [Slot.byte, hk, hj]
  · simp [Slot.byte, hk, List.getElem?_set_ne (Ne.symm hk)]

/-- Setting a bit inside the buffer changes that bit of the slot and no other. -/
theorem Slot.bit_setBit {x : Slot} {i : Nat} (hi : i / 8 < x.buf.length) (v : Bool) (j : Nat) :
    Slot.bit { x with buf := x.buf.set (i / 8) (setBit (x.byte (i / 8)) (i % 8) v) } j =
      if j = i then v else x.bit j := by
  rw [Slot.bit, Slot.byte_set hi]
  by_cases hbyte : j / 8 = i / 8
  · rw [if_pos hbyte, getLsbD_setBit _ (Nat.mod_lt i (by decide)), Slot.bit, hbyte]
    simp [show j % 8 = i % 8 ↔ j = i by omega]
  · rw [if_neg hbyte, if_neg (by rintro rfl; exact hbyte rfl), Slot.bit]

theorem exec_set_of_outside {s : State} {sa : SlotNum} (hv : (s.slot sa).valid ≠ false)
    (hm : (s.slot sa).mutable ≠ false) (hi : OutsideStore (s.slot sa) s.opa.toInt) :
    exec (.set sa) s = .next { s with err := .indexOutOfRange } :=
  (if_neg hv).trans ((if_neg hm).trans (if_pos hi))

theorem exec_set_of_inside {s : State} {sa : SlotNum} (hv : (s.slot sa).valid ≠ false)
    (hm : (s.slot sa).mutable ≠ false) (hi : ¬OutsideStore (s.slot sa) s.opa.toInt) :
    exec (.set sa) s = complete (s.setSlot sa { s.slot sa with
      buf := (s.slot sa).buf.set (s.opa.toInt.toNat / 8)
        (setBit ((s.slot sa).byte (s.opa.toInt.toNat / 8)) (s.opa.toInt.toNat % 8) (s.opb.getLsbD 0)) }) :=
  (if_neg hv).trans ((if_neg hm).trans (if_neg hi))

/-- Settles O41: the checks in their order, then the slot with one bit of one byte replaced. -/
theorem setWritesOneBit : Obligations.SetWritesOneBit := by
  intro s sa hs hsa
  split
  · rename_i hempty
    exact exec_of_empty_receiver rfl hempty
  rename_i hv
  have hvalid := Bool.eq_true_of_not_eq_false hv
  split
  · rename_i hread
    exact exec_set_readOnly hvalid hread
  rename_i hm
  split
  · rename_i hout
    exact exec_set_of_outside hv hm hout
  · rename_i hin
    obtain ⟨hnat, hlt⟩ := toNat_of_inside hin
    obtain ⟨-, -, hlen, -⟩ := (State.slot_wf hs sa).1 hvalid
    have hbyte : s.opa.toNat / 8 < (s.slot sa).buf.length := by rw [hlen, Slot.bufLen]; omega
    obtain ⟨t, ht, herr, honly, hslot⟩ := complete_setSlot _ (hs.lt_slots_length hsa)
    refine ⟨t, (exec_set_of_inside hv hm hin).trans ht, herr, honly, ?_⟩
    rw [hslot, hnat]
    exact ⟨hvalid, Bool.eq_true_of_not_eq_false hm, rfl, List.length_set,
      Slot.bit_setBit hbyte (s.opb.getLsbD 0)⟩

/-! ### SLICE -/

/-- Settles O43: with OPB = 1 the length check passes and SLICE reads the one bit. -/
theorem sliceOfOneBitIsGet : Obligations.SliceOfOneBitIsGet := by
  intro s sa hb
  have hlen : s32 s.opb = 1 := by rw [hb]; rfl
  simp only [exec, execSlice, execGet, hlen]
  rw [if_neg (by decide : ¬((1 : Int) < 1 ∨ (32 : Int) < 1)), if_pos trivial]

/-- A range stays in its slice window exactly when it stays in the buffer: the window is clamped to the buffer's
end (41_store_access.md R174). -/
theorem window_fits_iff (x : Slot) {start length : Nat} (h32 : length ≤ 32) :
    start - 8 * x.windowStart start + length ≤ 64 ↔ start + length ≤ 8 * x.bufLen := by
  simp only [Slot.windowStart, Slot.bufLen]
  omega

section
variable {s : State} {sa : SlotNum} {start length : Nat}
  (hv : (s.slot sa).valid = true) (hstart : s.opa.toInt = start) (hlength : s.opb.toInt = length)
  (hin : start < 8 * (s.slot sa).n) (h1 : 1 ≤ length) (h32 : length ≤ 32)

include hv hstart hlength hin h1 h32

/-- What SLICE does once its argument checks have passed (41_store_access.md R173). -/
theorem exec_slice_of_checked :
    exec (.slice sa) s =
      if length = 1 then complete { s with result := bitWord ((s.slot sa).bit start) }
      else if 64 < start - 8 * (s.slot sa).windowStart start + length then raise .windowOverrun s
      else complete { s with
        result := (extract ((s.slot sa).window ((s.slot sa).windowStart start))
          (start - 8 * (s.slot sa).windowStart start) length).setWidth 32 } := by
  have hone : (length : Int) = 1 ↔ length = 1 := by omega
  simp only [exec, execSlice, s32, hstart, hlength, Int.toNat_natCast, hone]
  rw [if_neg (by simp [hv]), if_neg (by rw [Slot.bitCount]; omega), if_neg (by omega)]

/-- A SLICE inside the buffer gives the number its bits make (41_store_access.md R178). -/
theorem exec_slice_of_fits (hfit : start + length ≤ 8 * (s.slot sa).bufLen) :
    exec (.slice sa) s = .next { s with
      result := BitVec.ofNat 32 (bitsValue (s.slot sa) start length), err := .ok } := by
  rw [exec_slice_of_checked hv hstart hlength hin h1 h32]
  by_cases hone : length = 1
  · rw [if_pos hone, hone, bitWord_eq_bitsValue, complete]
  · have hwindow := (window_fits_iff (s.slot sa) h32).2 hfit
    rw [if_neg hone, if_neg (Nat.not_lt.2 hwindow), extract_window _ h1 hwindow, complete]

/-- A SLICE that leaves the buffer raises WindowOverrun (41_store_access.md R177). -/
theorem exec_slice_of_overrun (hover : 8 * (s.slot sa).bufLen < start + length) :
    exec (.slice sa) s = .next { s with err := .windowOverrun } := by
  have hwindow := mt (window_fits_iff (s.slot sa) h32).1 (Nat.not_le.2 hover)
  rw [exec_slice_of_checked hv hstart hlength hin h1 h32,
    if_neg (by rw [Slot.bufLen] at hover; omega), if_pos (Nat.not_le.1 hwindow), raise]

end

/-- The numbers that two runs of equal bits make are equal. -/
theorem bitsValue_congr {x y : Slot} {start start' count : Nat}
    (h : ∀ j, j < count → x.bit (start + j) = y.bit (start' + j)) :
    bitsValue x start count = bitsValue y start' count := by
  refine Nat.eq_of_testBit_eq fun j => ?_
  rw [testBit_bitsValue, testBit_bitsValue]
  by_cases hj : j < count
  · rw [h j hj]
  · simp [hj]

/-- The bits past a store's end add nothing to the number a range makes: they are 0 (10_state.md R34). -/
theorem bitsValue_padding {x : Slot} {maxBytes start length : Nat} (hx : x.wf maxBytes) (hv : x.valid = true)
    (hend : 8 * x.n ≤ start + length) : bitsValue x start length = bitsValue x start (8 * x.n - start) := by
  refine Nat.eq_of_testBit_eq fun j => ?_
  rw [testBit_bitsValue, testBit_bitsValue]
  by_cases hj : start + j < 8 * x.n
  · simp [show j < length by omega, show j < 8 * x.n - start by omega]
  · simp [Slot.bit_padding hx hv (i := start + j) (Nat.not_lt.1 hj)]

/-- Settles O42: regions (a) and (b) stay in the buffer, region (c) leaves it. -/
theorem sliceThreeRegions : Obligations.SliceThreeRegions := by
  intro s sa start length hs _ hv hstart hlength hin h1 h32
  have hbuf : (s.slot sa).bufLen = max 8 (s.slot sa).n := rfl
  split
  · exact exec_slice_of_fits hv hstart hlength hin h1 h32 (by omega)
  · rename_i hend
    split
    · rw [← bitsValue_padding (State.slot_wf hs sa) hv (Nat.le_of_not_le hend)]
      exact exec_slice_of_fits hv hstart hlength hin h1 h32 (by omega)
    · exact exec_slice_of_overrun hv hstart hlength hin h1 h32 (by omega)

/-! ### Slices of joined bytes -/

/-- Bit `i` of a store is a bit of its logical bytes. -/
theorem Slot.bit_eq_getD_bytes {x : Slot} {i : Nat} (hi : i < 8 * x.n) :
    x.bit i = ((x.bytes 0 x.n).getD (i / 8) 0x00).getLsbD (i % 8) := by
  rw [Slot.getD_bytes, if_pos (by omega), Nat.zero_add, Slot.bit]

/-- The bits of a store stand in any store whose bytes contain its bytes, moved up by the bits before them
(41_store_access.md R180). -/
theorem Slot.bit_of_joined {x y : Slot} {a b : List Byte} (h : y.bytes 0 y.n = a ++ (x.bytes 0 x.n ++ b))
    {i : Nat} (hi : i < 8 * x.n) : y.bit (8 * a.length + i) = x.bit i := by
  have hn : y.n = a.length + (x.n + b.length) := by simpa using congrArg List.length h
  rw [Slot.bit_eq_getD_bytes (by omega), Slot.bit_eq_getD_bytes hi, h,
    List.getD_append_right _ _ _ _ (by omega), List.getD_append _ _ _ _ (by rw [Slot.length_bytes]; omega)]
  rw [show (8 * a.length + i) / 8 - a.length = i / 8 by omega,
    show (8 * a.length + i) % 8 = i % 8 by omega]

/-- A number below 2^31 in a register is its own signed reading (00_scope.md R17). -/
theorem toInt_ofNat_of_lt {k : Nat} (hk : k < 2 ^ 31) : (BitVec.ofNat 32 k).toInt = k := by
  have hnat : (BitVec.ofNat 32 k).toNat = k := by rw [BitVec.toNat_ofNat]; omega
  rw [BitVec.toInt_eq_toNat_of_lt (by omega), hnat]

/-- A SLICE that OPA and OPB place inside a store gives the number its bits make. -/
theorem exec_slice_at {s : State} (hs : s.Inv) {sa : SlotNum} (hv : (s.slot sa).valid = true) {start length : Nat}
    (h1 : 1 ≤ length) (h32 : length ≤ 32) (hend : start + length ≤ 8 * (s.slot sa).n) :
    exec (.slice sa) { s with opa := BitVec.ofNat 32 start, opb := BitVec.ofNat 32 length } = .next { s with
      opa := BitVec.ofNat 32 start, opb := BitVec.ofNat 32 length,
      result := BitVec.ofNat 32 (bitsValue (s.slot sa) start length), err := .ok } := by
  have hfit := hs.bitCount_lt hv
  exact exec_slice_of_fits (s := { s with opa := BitVec.ofNat 32 start, opb := BitVec.ofNat 32 length }) hv
    (toInt_ofNat_of_lt (by omega)) (toInt_ofNat_of_lt (by omega)) (by change start < 8 * (s.slot sa).n; omega) h1 h32
    (by change start + length ≤ 8 * (max 8 (s.slot sa).n); omega)

/-- A slice inside a store is the same slice, moved up by the bits before them, of a store whose bytes contain its
bytes. -/
theorem exec_slice_of_joined {s : State} (hs : s.Inv) {sx sy : SlotNum} (hx : (s.slot sx).valid = true)
    (hy : (s.slot sy).valid = true) {a b : List Byte}
    (h : (s.slot sy).bytes 0 (s.slot sy).n = a ++ ((s.slot sx).bytes 0 (s.slot sx).n ++ b)) {start length : Nat}
    (h1 : 1 ≤ length) (h32 : length ≤ 32) (hend : start + length ≤ 8 * (s.slot sx).n) :
    ∃ t u,
      exec (.slice sx) { s with opa := BitVec.ofNat 32 start, opb := BitVec.ofNat 32 length } = .next t ∧
      exec (.slice sy) { s with
        opa := BitVec.ofNat 32 (8 * a.length + start), opb := BitVec.ofNat 32 length } = .next u ∧
      t.err = .ok ∧ u.err = .ok ∧ t.result = u.result := by
  have hn : (s.slot sy).n = a.length + ((s.slot sx).n + b.length) := by simpa using congrArg List.length h
  refine ⟨_, _, exec_slice_at hs hx h1 h32 hend, exec_slice_at hs hy h1 h32 (by omega), rfl, rfl, ?_⟩
  refine congrArg (BitVec.ofNat 32) (bitsValue_congr fun j hj => ?_)
  rw [Nat.add_assoc, Slot.bit_of_joined h (by omega)]

/-- Settles O44: slot p's bytes have none before them in slot q, slot r's bytes have none after them. -/
theorem sliceBoundaryIndependence : Obligations.SliceBoundaryIndependence := by
  constructor
  · intro s sp sq b hs _ _ hp hq h start length h1 h32 hend
    simpa using exec_slice_of_joined hs hp hq (a := []) h h1 h32 hend
  · intro s sq sr a hs _ _ hq hr h start length h1 h32 hend
    exact exec_slice_of_joined hs hr hq (b := []) (by rw [List.append_nil, h]) h1 h32 hend

end Sys2Proof.Machine
end

section
/-! The packer commands, the packed bytes and the accumulator that an implementation may use for them
(42_packer.md). -/

namespace Sys2Proof.Machine

/-! ### The width of a mask -/

theorem fieldWidth_spec (mask : BitVec 32) :
    fieldWidth mask ≤ 32 ∧ (∀ j, j < fieldWidth mask → mask.getLsbD j = true) ∧
      (fieldWidth mask < 32 → mask.getLsbD (fieldWidth mask) = false) := by
  obtain ⟨-, hle, hones, hzero⟩ := countOnes_spec mask 32 0 fun j hj => absurd hj (Nat.not_lt_zero j)
  rw [Nat.zero_add] at hle hzero
  exact ⟨hle, hones, hzero⟩

/-- A run of ones does not go past a 0 bit that ends another one. -/
theorem run_of_ones_le {mask : BitVec 32} {w w' : Nat} (hle : w ≤ 32)
    (hones : ∀ j, j < w → mask.getLsbD j = true) (hzero : w' < 32 → mask.getLsbD w' = false) : w ≤ w' := by
  by_contra hlt
  have hone := hones w' (by omega)
  rw [hzero (by omega)] at hone
  exact Bool.false_ne_true hone

/-- Settles O49: two runs of ones from bit 0 that each end in a 0, or at bit 32, are equally long. -/
theorem fieldWidthCountsLowOnes : Obligations.FieldWidthCountsLowOnes := by
  intro mask w
  obtain ⟨hle, hones, hzero⟩ := fieldWidth_spec mask
  constructor
  · rintro rfl
    exact ⟨hle, hones, hzero⟩
  · rintro ⟨hle', hones', hzero'⟩
    exact Nat.le_antisymm (run_of_ones_le hle hones hzero') (run_of_ones_le hle' hones' hzero)

/-! ### The adds -/

/-- Every add is `addField` of some value and mask (42_packer.md R222 to R225). -/
theorem exec_of_isAdd {i : Instr} (h : i.isAdd = true) (s : State) :
    ∃ v mask, exec i s = conclude s (addField v mask s) := by
  cases i
  case padd => exact ⟨_, _, rfl⟩
  case paddb => exact ⟨_, _, rfl⟩
  case padd8 => exact ⟨_, _, rfl⟩
  case padd16 => exact ⟨_, _, rfl⟩
  all_goals exact Bool.noConfusion h

/-- Settles O51: both refusals are those of `addField`. -/
theorem addsRefused : Obligations.AddsRefused := by
  intro s i hi
  obtain ⟨v, mask, hexec⟩ := exec_of_isAdd hi s
  rw [hexec]
  constructor
  · intro hspent
    rw [addField_of_spent hspent, conclude_error, raise]
  · intro hunspent hfull
    rw [addField_of_full hunspent hfull, conclude_error, raise]

/-- The end of a range as RESULT2 holds it: of an empty range at 0 it is 2^32 - 1 (42_packer.md R221). -/
theorem u32_range_end_toNat (lo w : Nat) :
    (u32 ((lo : Int) + w - 1)).toNat = (lo + w + (2 ^ 32 - 1)) % 2 ^ 32 := by
  rw [u32, BitVec.toNat_ofInt]
  omega

/-- An add with room completes: the field is appended at the running bit count (42_packer.md R221, R222). -/
theorem conclude_addField_of_room {s : State} (hs : s.Inv) (hspent : s.pk.spent = false)
    (hroom : s.pk.fields.length < s.params.maxFields) {v : BitVec 64} {mask : BitVec 32} {n w : Nat}
    (hv : v.toNat = n) (hw : fieldWidth mask = w) :
    ∃ t, conclude s (addField v mask s) = .next t ∧ t.err = .ok ∧
      t.pk.fields = s.pk.fields ++ [⟨BitVec.ofNat 64 n, mask, w⟩] ∧
      t.pk.totalBits = s.pk.totalBits + w ∧ t.pk.spent = false ∧
      t.result.toNat = s.pk.totalBits ∧
      t.result2.toNat = (s.pk.totalBits + w + (2 ^ 32 - 1)) % 2 ^ 32 ∧
      KeepsOperands s t ∧ KeepsData s t ∧ t.slots = s.slots := by
  subst hv hw
  obtain ⟨-, htotal, -⟩ := hs.counts_fit
  rw [addField_of_room hspent (Nat.ne_of_lt hroom), conclude_ok, BitVec.ofNat_toNat, BitVec.setWidth_eq]
  exact ⟨_, rfl, rfl, rfl, rfl, hspent, u32_toNat htotal, u32_range_end_toNat _ _,
    ⟨rfl, rfl, rfl, rfl, rfl, rfl, rfl, rfl, rfl⟩, fun _ => rfl, rfl⟩

theorem zext_bit_toNat (w : Word) : ((BitVec.ofBool (w.getLsbD 0)).setWidth 64).toNat = w.toNat % 2 := by
  rw [BitVec.toNat_setWidth, BitVec.toNat_ofBool, BitVec.getLsbD, Nat.testBit_zero]
  rcases Nat.mod_two_eq_zero_or_one w.toNat with h | h <;> simp [h]

theorem zext_low_toNat (w : Word) {n : Nat} (hn : n ≤ 64) :
    ((w.extractLsb' 0 n).setWidth 64).toNat = w.toNat % 2 ^ n := by
  rw [BitVec.toNat_setWidth, BitVec.extractLsb'_toNat, Nat.shiftRight_zero]
  exact Nat.mod_eq_of_lt (Nat.lt_of_lt_of_le (Nat.mod_lt _ (Nat.two_pow_pos n)) (Nat.pow_le_pow_right (by decide) hn))

/-- Settles O50: each of the four adds is `addField` with room, of its own value and mask. -/
theorem addsAppendField : Obligations.AddsAppendField := by
  intro s hs hspent hroom c hc
  simp only [List.mem_cons, List.not_mem_nil, or_false] at hc
  rcases hc with rfl | rfl | rfl | rfl
  · exact conclude_addField_of_room hs hspent hroom
      ((toNat_append_eq_add s.val1 s.val0).trans (Nat.add_comm _ _)) rfl
  · exact conclude_addField_of_room hs hspent hroom (zext_bit_toNat s.opa)
      (by decide : fieldWidth 0x00000001 = 1)
  · exact conclude_addField_of_room hs hspent hroom (zext_low_toNat s.val0 (by decide))
      (by decide : fieldWidth 0x000000FF = 8)
  · exact conclude_addField_of_room hs hspent hroom (zext_low_toNat s.val0 (by decide))
      (by decide : fieldWidth 0x0000FFFF = 16)

/-- Settles O55: PCLEAR replaces the packer by the empty one. -/
theorem pclearEmptiesPacker : Obligations.PclearEmptiesPacker :=
  fun _ => ⟨_, rfl, rfl, rfl, ⟨rfl, rfl, rfl, rfl, rfl, rfl, rfl, rfl, rfl⟩, ⟨rfl, rfl⟩, fun _ => rfl, rfl⟩

/-! ### The bits of the packed bytes -/

theorem widthSum_cons (f : Field) (fs : List Field) : widthSum (f :: fs) = f.width + widthSum fs := by
  simp [widthSum]

theorem widthSum_append (fs gs : List Field) : widthSum (fs ++ gs) = widthSum fs + widthSum gs := by
  simp [widthSum]

/-- The packed integer holds every field's low bits at the field's range (42_packer.md R226). -/
theorem testBit_packInto_range (before : List Field) (f : Field) (after : List Field) {k : Nat} (hk : k < f.width) :
    (packInto (before ++ f :: after) 0 0).1.testBit (widthSum before + k) = f.value.getLsbD k := by
  induction before with
  | nil =>
    rw [List.nil_append, testBit_packInto_cons]
    simp [widthSum, hk]
  | cons g before ih =>
    rw [List.cons_append, testBit_packInto_cons, widthSum_cons, if_neg (by omega), ← ih]
    congr 1
    omega

/-- Bit `k` of a field stands at bit `lo + k` of the packed store, its range starting at `lo`
(42_packer.md R228). -/
theorem builtSlot_pack_bit_range (before : List Field) (f : Field) (after : List Field) (m : Bool) {k : Nat}
    (hk : k < f.width) :
    (builtSlot (pack (before ++ f :: after)) m).bit (widthSum before + k) = f.value.getLsbD k := by
  rw [builtSlot_bit, bit_pack, testBit_packInto_range before f after hk]

/-- The packed store is 0 past the fields' bits (42_packer.md R228). -/
theorem builtSlot_pack_bit_end (fs : List Field) (m : Bool) {j : Nat} (hj : widthSum fs ≤ j) :
    (builtSlot (pack fs) m).bit j = false := by
  obtain ⟨-, hlt⟩ := packInto_split fs 0 0 (Nat.two_pow_pos 0)
  rw [builtSlot_bit, bit_pack]
  exact Nat.testBit_lt_two_pow (Nat.lt_of_lt_of_le hlt (Nat.pow_le_pow_right (by decide) hj))

/-! ### PBUILD -/

/-- A PBUILD of bits that fit completes with the packed store in its slot (42_packer.md R228). -/
theorem exec_pbuild_of_fits {s : State} (hs : s.Inv) (m : Bool) {sa : SlotNum} (hsa : sa.toNat < s.params.numSlots)
    (hspent : s.pk.spent = false) (hpos : 0 < s.pk.totalBits)
    (hfit : (s.pk.totalBits + 7) / 8 ≤ s.params.maxBytes) :
    ∃ t, exec (.pbuild m sa) s = .next t ∧ t.err = .ok ∧ t.slot sa = builtSlot (pack s.pk.fields) m ∧
      t.result.toNat = (s.pk.totalBits + 7) / 8 ∧ t.result2.toNat = s.pk.totalBits ∧
      t.pk = { s.pk with spent := true } ∧ KeepsOperands s t ∧ KeepsData s t ∧ KeepsSlotsBut sa s t := by
  obtain ⟨-, htotal32, -⟩ := hs.counts_fit
  have ⟨_, _, _, ⟨_, _, htotal⟩, _⟩ := hs
  have hlen : (pack s.pk.fields).length = (s.pk.totalBits + 7) / 8 := by rw [length_pack, htotal]
  have hexec : exec (.pbuild m sa) s = conclude s (buildStore sa (pack s.pk.fields) m s) := by
    rw [exec, execPbuild, if_neg (by simp [hspent]), if_neg (Nat.ne_of_gt hpos)]
    exact if_neg (by omega)
  rw [hexec, buildStore_of_fits (by omega) (by omega), conclude_ok, hlen]
  exact ⟨_, rfl, rfl, State.slot_setSlot_same _ (hs.lt_slots_length hsa), u32_toNat (by omega), u32_toNat htotal32,
    rfl, ⟨rfl, rfl, rfl, rfl, rfl, rfl, rfl, rfl, rfl⟩, fun _ => rfl, State.setSlot_keepsSlotsBut s sa _⟩

/-- Settles O52: the slot PBUILD leaves is the packed store. -/
theorem pbuildPacksFields : Obligations.PbuildPacksFields := by
  intro s m sa hs hsa hspent hpos hfit
  have ⟨_, _, _, ⟨_, _, htotal⟩, _⟩ := hs
  obtain ⟨t, ht, herr, hslot, hrest⟩ := exec_pbuild_of_fits hs m hsa hspent hpos hfit
  refine ⟨t, ht, herr, ?_⟩
  rw [hslot]
  refine ⟨rfl, rfl, by simp [htotal], by simp [htotal], ?_, ?_, hrest⟩
  · intro before f after hfields k hk
    rw [hfields]
    exact builtSlot_pack_bit_range before f after m hk
  · intro j hj
    exact builtSlot_pack_bit_end _ m (htotal ▸ hj)

/-- The number that a run of bits of a store makes, when the bits are those of a number. -/
theorem bitsValue_eq_mod {x : Slot} {start count v : Nat} (h : ∀ j, j < count → x.bit (start + j) = v.testBit j) :
    bitsValue x start count = v % 2 ^ count := by
  refine Nat.eq_of_testBit_eq fun j => ?_
  rw [testBit_bitsValue, Nat.testBit_mod_two_pow]
  by_cases hj : j < count
  · rw [h j hj]
  · simp [hj]

/-- Settles O54: the range lies in the built store, so SLICE gives the number its bits make, which are the
field's. -/
theorem fieldRecovery : Obligations.FieldRecovery := by
  intro s m sa before after f hs hsa hspent hfit hfields h1
  have ⟨_, _, _, ⟨_, hwidth, htotal⟩, _⟩ := hs
  have h32 : f.width ≤ 32 := by
    rw [hwidth f (by simp [hfields])]
    exact fieldWidth_le _
  have hend : widthSum before + f.width ≤ s.pk.totalBits := by
    rw [htotal, hfields, widthSum_append, widthSum_cons]
    omega
  obtain ⟨t, ht, herr, hvalid, -, hn, -, hbits, -⟩ := pbuildPacksFields s m sa hs hsa hspent (by omega) hfit
  obtain ⟨t', ht', heff⟩ := exec_effect (.pbuild m sa) s
  obtain rfl : t = t' := by simpa [ht] using ht'
  refine ⟨t, _, ht, herr, exec_slice_at (heff.keeps_inv hs) hvalid h1 h32 (by omega), rfl, ?_⟩
  have hvalue := bitsValue_eq_mod (v := f.value.toNat) (hbits before f after hfields)
  have hlt : f.value.toNat % 2 ^ f.width < 2 ^ 32 :=
    Nat.lt_of_lt_of_le (Nat.mod_lt _ (Nat.two_pow_pos _)) (Nat.pow_le_pow_right (by decide) h32)
  change (BitVec.ofNat 32 (bitsValue (t.slot sa) (widthSum before) f.width)).toNat = _
  rw [hvalue, BitVec.toNat_ofNat, Nat.mod_eq_of_lt hlt]

/-! ### The accumulator algorithm -/

/-- The bytes of an integer in two runs: the low ones, then those of the integer shifted past them. -/
theorem bytesLE_add (q n v : Nat) : bytesLE (q + n) v = bytesLE q v ++ bytesLE n (v / 256 ^ q) := by
  induction q generalizing v with
  | zero => simp [bytesLE]
  | succ q ih =>
    rw [Nat.succ_add, bytesLE, bytesLE, ih, List.cons_append, Nat.div_div_eq_div_mul, Nat.pow_succ']

/-- What stands at or above bit `8 * q` does not show in the `q` low bytes. -/
theorem bytesLE_mul_pow_add (q u v : Nat) : bytesLE q (u * 256 ^ q + v) = bytesLE q v := by
  induction q generalizing v with
  | zero => rfl
  | succ q ih =>
    have hmul : u * 256 ^ (q + 1) + v = 256 * (u * 256 ^ q) + v := by ring
    have hlow : BitVec.ofNat 8 (256 * (u * 256 ^ q) + v) = BitVec.ofNat 8 v := by
      apply BitVec.eq_of_toNat_eq
      rw [BitVec.toNat_ofNat, BitVec.toNat_ofNat, show 2 ^ 8 = 256 by rfl, Nat.mul_add_mod]
    rw [hmul, bytesLE, bytesLE, hlow, Nat.mul_add_div (by decide), ih]

theorem two_pow_eq_mul_bytes {pos q : Nat} (hq : 8 * q ≤ pos) : 2 ^ pos = 2 ^ (pos - 8 * q) * 256 ^ q := by
  rw [show (256 : Nat) = 2 ^ 8 by rfl, ← Nat.pow_mul, ← Nat.pow_add, Nat.sub_add_cancel hq]

/-- What is left of `pos` bits when `q` bytes are flushed. -/
theorem div_bytes_lt {acc pos q : Nat} (hacc : acc < 2 ^ pos) (hq : 8 * q ≤ pos) :
    acc / 256 ^ q < 2 ^ (pos - 8 * q) :=
  Nat.div_lt_of_lt_mul (by rwa [Nat.mul_comm, ← two_pow_eq_mul_bytes hq])

/-- Flushing whole bytes of what is packed so far, then packing on, gives the bytes of packing all
(42_packer.md R227). -/
theorem bytesLE_append_packInto (fs : List Field) {acc pos q : Nat} (n : Nat) (hacc : acc < 2 ^ pos)
    (hq : 8 * q ≤ pos) :
    bytesLE q acc ++ bytesLE n (packInto fs (acc / 256 ^ q) (pos - 8 * q)).1 =
      bytesLE (q + n) (packInto fs acc pos).1 := by
  obtain ⟨hall, -⟩ := packInto_split fs acc pos hacc
  obtain ⟨hrest, -⟩ := packInto_split fs _ _ (div_bytes_lt hacc hq)
  have hpos : 0 < 256 ^ q := Nat.pow_pos (by decide)
  rw [hall, hrest, two_pow_eq_mul_bytes hq, ← Nat.mul_assoc, bytesLE_add, bytesLE_mul_pow_add, Nat.mul_comm _ (256 ^ q),
    Nat.mul_add_div hpos]

/-- The inner loop flushes the whole bytes that are buffered and keeps the bits past them. -/
theorem flushBytes_eq {fuel k : Nat} (acc : BitVec 64) (hfuel : k / 8 ≤ fuel) :
    flushBytes fuel acc k = (bytesLE (k / 8) acc.toNat, acc >>> (8 * (k / 8)), k % 8) := by
  induction fuel generalizing acc k with
  | zero =>
    rw [flushBytes, Nat.le_zero.1 hfuel, show k % 8 = k by omega]
    simp [bytesLE]
  | succ fuel ih =>
    rw [flushBytes]
    split
    · rename_i h8
      rw [ih _ (by omega), show k / 8 = (k - 8) / 8 + 1 by omega, bytesLE, BitVec.toNat_ushiftRight,
        Nat.shiftRight_eq_div_pow, BitVec.ofNat_toNat, ← BitVec.shiftRight_add]
      rw [show (k - 8) % 8 = k % 8 by omega, Nat.mul_add, Nat.add_comm 8]
    · rw [show k / 8 = 0 by omega, show k % 8 = k by omega]
      simp [bytesLE]

/-- The XOR of a field into the accumulator is the OR of the packing function: nothing overlaps, and nothing
leaves the 64 bits. -/
theorem merged_toNat {acc : BitVec 64} {k v w : Nat} (hk : k < 8) (hw : w ≤ 32) (hacc : acc.toNat < 2 ^ k)
    (hv : v < 2 ^ w) :
    (acc ^^^ (BitVec.ofNat 64 v <<< k)).toNat = acc.toNat ||| (v <<< k) ∧
      acc.toNat ||| (v <<< k) < 2 ^ (k + w) := by
  have hshift : v <<< k < 2 ^ (k + w) := by
    rw [Nat.shiftLeft_eq, Nat.pow_add, Nat.mul_comm]
    exact Nat.mul_lt_mul_of_pos_left hv (Nat.two_pow_pos k)
  have hfit : 2 ^ (k + w) ≤ 2 ^ 64 := Nat.pow_le_pow_right (by decide) (by omega)
  have hv64 : v < 2 ^ 64 := Nat.lt_of_lt_of_le hv (Nat.pow_le_pow_right (by decide) (by omega))
  refine ⟨?_, Nat.or_lt_two_pow
    (Nat.lt_of_lt_of_le hacc (Nat.pow_le_pow_right (by decide) (Nat.le_add_right k w))) hshift⟩
  rw [BitVec.toNat_xor, BitVec.toNat_shiftLeft, BitVec.toNat_ofNat, Nat.mod_eq_of_lt hv64,
    Nat.mod_eq_of_lt (Nat.lt_of_lt_of_le hshift hfit)]
  refine Nat.eq_of_testBit_eq fun i => ?_
  rw [Nat.testBit_xor, Nat.testBit_or, Nat.testBit_shiftLeft]
  by_cases hi : k ≤ i
  · rw [Nat.testBit_lt_two_pow (Nat.lt_of_lt_of_le hacc (Nat.pow_le_pow_right (by decide) hi))]
    simp
  · simp [hi]

/-- The accumulator algorithm from `k` buffered bits on gives the bytes of packing on from those bits. -/
theorem accumulate_eq {fs : List Field} (hfs : ∀ f ∈ fs, f.width ≤ 32) {acc : BitVec 64} {k : Nat} (hk : k < 8)
    (hacc : acc.toNat < 2 ^ k) :
    accumulate fs acc k = bytesLE ((k + widthSum fs + 7) / 8) (packInto fs acc.toNat k).1 := by
  induction fs generalizing acc k with
  | nil =>
    rw [accumulate, packInto, show widthSum [] = 0 by rfl]
    split
    · rw [show (k + 0 + 7) / 8 = 1 by omega, bytesLE, bytesLE, BitVec.ofNat_toNat]
    · rw [show (k + 0 + 7) / 8 = 0 by omega, bytesLE]
  | cons f fs ih =>
    obtain ⟨hmerged, hlt⟩ := merged_toNat (w := f.width) hk (hfs f List.mem_cons_self) hacc
      (Nat.mod_lt f.value.toNat (Nat.two_pow_pos f.width))
    rw [← hmerged] at hlt
    rw [accumulate, packInto, ← hmerged, widthSum_cons]
    generalize acc ^^^ (BitVec.ofNat 64 (f.value.toNat % 2 ^ f.width) <<< k) = merged at hlt ⊢
    have hflushed : (merged >>> (8 * ((k + f.width) / 8))).toNat = merged.toNat / 256 ^ ((k + f.width) / 8) := by
      rw [BitVec.toNat_ushiftRight, Nat.shiftRight_eq_div_pow, Nat.pow_mul]
    have hmod : k + f.width - 8 * ((k + f.width) / 8) = (k + f.width) % 8 := by omega
    have hrest := div_bytes_lt hlt (Nat.mul_div_le (k + f.width) 8)
    rw [← hflushed, hmod] at hrest
    rw [flushBytes_eq merged (Nat.div_le_self _ 8), ih (fun g hg => hfs g (List.mem_cons_of_mem f hg))
      (Nat.mod_lt _ (by decide)) hrest, hflushed, ← hmod, bytesLE_append_packInto fs _ hlt (Nat.mul_div_le _ 8)]
    congr 1
    omega

/-- Settles O53: the accumulator starts empty. -/
theorem accumulatorMatchesPack : Obligations.AccumulatorMatchesPack := by
  intro fields hfields
  rw [packAccumulator, accumulate_eq hfields (by decide) (by decide), pack, packInto_length]
  rfl

end Sys2Proof.Machine
end

section
/-! The control command (43_control.md). -/

namespace Sys2Proof.Machine

/-- Recording a code in STATUS.ERR keeps everything else. -/
theorem State.onlyErr_withErr (s : State) (e : ErrCode) : OnlyErr s { s with err := e } :=
  ⟨⟨rfl, rfl, rfl, rfl, rfl, rfl, rfl, rfl, rfl⟩, ⟨rfl, rfl⟩, rfl, rfl, rfl⟩

/-- NOP completes in the state it started from (43_control.md R260). -/
theorem exec_nop (s : State) : exec .nop s = complete s := rfl

/-- Settles O34: completing in the state a command started from only clears STATUS.ERR. -/
theorem nopOnlyClearsErr : Obligations.NopOnlyClearsErr := by
  intro s
  rw [exec_nop]
  exact ⟨_, complete_next.2 rfl, rfl, s.onlyErr_withErr .ok⟩

end Sys2Proof.Machine
end

section
/-! How commands end: one code, which depends on nothing the last command left in STATUS.ERR, and the exact causes
of each (60_exceptions.md). -/

namespace Sys2Proof.Machine

/-! ### One code for each command -/

/-- Settles O20: a command that raises only records its code, and one that completes ends with OK. -/
theorem errorChangesOnlyErr : Obligations.ErrorChangesOnlyErr := by
  intro i s
  obtain ⟨e, -, -, h⟩ | ⟨t, h, -⟩ := exec_cases i s
  · exact ⟨_, h, fun _ => s.onlyErr_withErr e⟩
  · exact ⟨_, h, fun herr => absurd rfl herr⟩

/-- A construction that ends a command overwrites the code before it. -/
theorem conclude_construct_withErr (s : State) (e : ErrCode) (sa : SlotNum) (bs : List Byte) (m : Bool) :
    conclude { s with err := e } (construct sa bs m { s with err := e }) = conclude s (construct sa bs m s) := by
  unfold construct
  split
  · rfl
  split
  · rfl
  · rfl

/-- A field appended at a command's end overwrites the code before it. -/
theorem conclude_addField_withErr (s : State) (e : ErrCode) (v : BitVec 64) (mask : BitVec 32) :
    conclude { s with err := e } (addField v mask { s with err := e }) = conclude s (addField v mask s) := by
  unfold addField
  split
  · rfl
  split
  · rfl
  · rfl

theorem buildStore_of_empty {s : State} {sa : SlotNum} {bs : List Byte} {m : Bool} (h0 : bs.length = 0) :
    buildStore sa bs m s = .error .invalidArgument := by
  rw [buildStore, construct_of_empty h0]

theorem buildStore_of_long {s : State} {sa : SlotNum} {bs : List Byte} {m : Bool} (h0 : bs.length ≠ 0)
    (h : s.params.maxBytes < bs.length) : buildStore sa bs m s = .error .capacity := by
  rw [buildStore, construct_of_long h0 h]

/-- The store that ends a PBUILD overwrites the code before it. -/
theorem conclude_buildStore_withErr (s : State) (e : ErrCode) (sa : SlotNum) (bs : List Byte) (m : Bool) :
    conclude { s with err := e } (buildStore sa bs m { s with err := e }) = conclude s (buildStore sa bs m s) := by
  by_cases h0 : bs.length = 0
  · rw [buildStore_of_empty h0, buildStore_of_empty h0]
    rfl
  by_cases hlong : s.params.maxBytes < bs.length
  · rw [buildStore_of_long (s := { s with err := e }) h0 hlong, buildStore_of_long h0 hlong]
    rfl
  · have hfit := Nat.not_lt.1 hlong
    rw [buildStore_of_fits (s := { s with err := e }) h0 hfit, buildStore_of_fits h0 hfit]
    rfl

/-- Settles O21: no check reads STATUS.ERR, and `raise` and `complete` overwrite it. -/
theorem noErrorHistory : Obligations.NoErrorHistory := by
  intro i s e
  cases i with
  | nop | free | get | set | slice | count | nbytes | exportAll | exportLogical | eq | pclear => rfl
  | load8 | load16 | load32 | load64 | load128 => exact conclude_construct_withErr s e _ _ _
  | padd | paddb | padd8 | padd16 => exact conclude_addField_withErr s e _ _
  | loadb m sa =>
    exact congrArg (ite _ _) (congrArg (ite _ _) (conclude_construct_withErr s e _ _ _))
  | copy m sa sb =>
    exact congrArg (ite _ _) (conclude_construct_withErr s e _ _ _)
  | pbuild m sa =>
    exact congrArg (ite _ _) (congrArg (ite _ _) (congrArg (ite _ _) (conclude_buildStore_withErr s e _ _ _)))

/-- A CMD write of any word goes on, and keeps the operands and the host's side of the port. -/
theorem runCommand_keepsOperands (w : Word) (s : State) : ∃ t, runCommand w s = .next t ∧ KeepsOperands s t := by
  obtain ⟨i, -, hrun⟩ | ⟨-, -, hrun⟩ := runCommand_cases w s
  · obtain ⟨t, ht, heff⟩ := exec_effect i s
    exact ⟨t, hrun.trans ht, heff.operands⟩
  · exact ⟨_, hrun, (s.onlyErr_withErr .illegalCommand).1⟩

/-- Settles O22: the command leaves the read pending, which then answers STATUS. -/
theorem statusReadSeesCommand : Obligations.StatusReadSeesCommand := by
  intro s rest w hport
  obtain ⟨t, ht, hparams, -, -, -, -, -, -, htport, hreplies⟩ := runCommand_keepsOperands w
    { s with port := .access ⟨s.params.base + 0x004, 32, .read⟩ :: rest }
  dsimp only at hparams htport hreplies
  have hread : t.port = .access ⟨t.params.base + Reg.status.offset, 32, .read⟩ :: rest := by
    rw [htport, hparams]
    rfl
  refine ⟨t, t.status, ht, ?_, step_reg_read (s := { t with replies := .written :: s.replies }) hread, ?_⟩
  · rw [step_cmd_write hport, ht, answered, State.reply, hreplies]
  · rw [t.status_err]
    exact t.err.mem_errorNumbers

/-! ### The causes of the errors -/

/-- The causes of each error code, each in full: with the checks that stand before it in 60_exceptions.md R280. -/
inductive Raises (s : State) : Instr → ErrCode → Prop
  | loadbZero {m : Bool} {sa : SlotNum} (hzero : s.opa.toNat = 0) : Raises s (.loadb m sa) .invalidArgument
  | pbuildEmpty {m : Bool} {sa : SlotNum} (hspent : s.pk.spent = false) (hzero : s.pk.totalBits = 0) :
      Raises s (.pbuild m sa) .invalidArgument
  | getOutside {sa : SlotNum} (hv : (s.slot sa).valid = true) (hout : OutsideStore (s.slot sa) s.opa.toInt) :
      Raises s (.get sa) .indexOutOfRange
  | setOutside {sa : SlotNum} (hv : (s.slot sa).valid = true) (hm : (s.slot sa).mutable = true)
      (hout : OutsideStore (s.slot sa) s.opa.toInt) : Raises s (.set sa) .indexOutOfRange
  | sliceOutside {sa : SlotNum} (hv : (s.slot sa).valid = true)
      (hout : OutsideStore (s.slot sa) s.opa.toInt ∨ s.opb.toInt < 1 ∨ 32 < s.opb.toInt) :
      Raises s (.slice sa) .indexOutOfRange
  | emptyReceiver {i : Instr} {sa : SlotNum} (hi : i.receiver = some sa) (hv : (s.slot sa).valid = false) :
      Raises s i .noStore
  | copyEmpty {m : Bool} {sa sb : SlotNum} (hv : (s.slot sb).valid = false) : Raises s (.copy m sa sb) .noStore
  | setReadOnly {sa : SlotNum} (hv : (s.slot sa).valid = true) (hm : (s.slot sa).mutable = false) :
      Raises s (.set sa) .modeViolation
  | eqMutable {sa sb : SlotNum} (hv : (s.slot sa).valid = true)
      (hm : (s.slot sa).mutable = true ∨ (s.slot sb).valid = true ∧ (s.slot sb).mutable = true) :
      Raises s (.eq sa sb) .modeViolation
  | loadbLong {m : Bool} {sa : SlotNum} (hlong : s.params.maxBytes < s.opa.toNat) :
      Raises s (.loadb m sa) .capacity
  | addFull {i : Instr} (hi : i.isAdd = true) (hspent : s.pk.spent = false)
      (hfull : s.pk.fields.length = s.params.maxFields) : Raises s i .capacity
  | pbuildLong {m : Bool} {sa : SlotNum} (hspent : s.pk.spent = false)
      (hlong : s.params.maxBytes < (s.pk.totalBits + 7) / 8) : Raises s (.pbuild m sa) .capacity
  | addSpent {i : Instr} (hi : i.isAdd = true) (hspent : s.pk.spent = true) : Raises s i .packerSpent
  | pbuildSpent {m : Bool} {sa : SlotNum} (hspent : s.pk.spent = true) : Raises s (.pbuild m sa) .packerSpent
  | sliceOverrun {sa : SlotNum} (hv : (s.slot sa).valid = true) (hin : ¬OutsideStore (s.slot sa) s.opa.toInt)
      (h2 : 2 ≤ s.opb.toInt) (h32 : s.opb.toInt ≤ 32)
      (hover : 64 < s.opa.toInt - 8 * min (s.opa.toInt / 8) (max 8 (s.slot sa).n - 8 : Nat) + s.opb.toInt) :
      Raises s (.slice sa) .windowOverrun

variable {s : State}

/-! ### Each cause raises its error -/

theorem exec_slice_of_refused {sa : SlotNum} (hv : (s.slot sa).valid = true)
    (hout : OutsideStore (s.slot sa) s.opa.toInt ∨ s.opb.toInt < 1 ∨ 32 < s.opb.toInt) :
    exec (.slice sa) s = .next { s with err := .indexOutOfRange } := by
  refine (if_neg (by simp [hv])).trans ?_
  by_cases hstart : OutsideStore (s.slot sa) s.opa.toInt
  · exact if_pos hstart
  · exact (if_neg hstart).trans (if_pos (hout.resolve_left hstart))

theorem exec_eq_of_mutable {sa sb : SlotNum} (hv : (s.slot sa).valid = true)
    (hm : (s.slot sa).mutable = true ∨ (s.slot sb).valid = true ∧ (s.slot sb).mutable = true) :
    exec (.eq sa sb) s = .next { s with err := .modeViolation } := by
  refine (if_neg (by simp [hv])).trans ?_
  by_cases hma : (s.slot sa).mutable = true
  · exact if_pos hma
  · obtain ⟨hvb, hmb⟩ := hm.resolve_left hma
    exact (if_neg hma).trans ((if_neg (by simp [hvb])).trans (if_pos hmb))

/-- EQ of a read-only store with an empty SB gives 0 (60_exceptions.md R274). -/
theorem exec_eq_of_empty_comparand {sa sb : SlotNum} (hv : (s.slot sa).valid = true)
    (hm : (s.slot sa).mutable = false) (hv' : (s.slot sb).valid = false) :
    exec (.eq sa sb) s = .next { s with result := 0, err := .ok } :=
  (if_neg (by simp [hv])).trans ((if_neg (by simp [hm])).trans (if_pos hv'))

theorem exec_pbuild_of_spent {m : Bool} {sa : SlotNum} (hspent : s.pk.spent = true) :
    exec (.pbuild m sa) s = .next { s with err := .packerSpent } :=
  if_pos hspent

theorem exec_pbuild_of_empty {m : Bool} {sa : SlotNum} (hspent : s.pk.spent = false)
    (hzero : s.pk.totalBits = 0) : exec (.pbuild m sa) s = .next { s with err := .invalidArgument } :=
  (if_neg (by simp [hspent])).trans (if_pos hzero)

theorem exec_pbuild_of_long (hs : s.Inv) {m : Bool} {sa : SlotNum} (hspent : s.pk.spent = false)
    (hlong : s.params.maxBytes < (s.pk.totalBits + 7) / 8) :
    exec (.pbuild m sa) s = .next { s with err := .capacity } := by
  have ⟨_, _, _, ⟨_, _, htotal⟩, _⟩ := hs
  have hlen : s.params.maxBytes < (pack s.pk.fields).length := by rwa [length_pack, ← htotal]
  exact (if_neg (by simp [hspent])).trans ((if_neg (by omega)).trans (if_pos hlen))

/-- In a state that meets the invariant a command with a cause of an error ends with that error. -/
theorem Raises.exec_eq {i : Instr} {e : ErrCode} (h : Raises s i e) (hs : s.Inv) :
    exec i s = .next { s with err := e } := by
  cases h with
  | loadbZero hzero => exact exec_loadb_of_zero _ _ hzero
  | pbuildEmpty hspent hzero => exact exec_pbuild_of_empty hspent hzero
  | getOutside hv hout => exact exec_get_of_outside (by simp [hv]) hout
  | setOutside hv hm hout => exact exec_set_of_outside (by simp [hv]) (by simp [hm]) hout
  | sliceOutside hv hout => exact exec_slice_of_refused hv hout
  | emptyReceiver hi hv => exact exec_of_empty_receiver hi hv
  | copyEmpty hv => exact exec_copy_of_empty _ _ hv
  | setReadOnly hv hm => exact exec_set_readOnly hv hm
  | eqMutable hv hm => exact exec_eq_of_mutable hv hm
  | loadbLong hlong => exact exec_loadb_of_long _ _ (by omega) hlong
  | addFull hi hspent hfull => exact (addsRefused s i hi).2 hspent hfull
  | pbuildLong hspent hlong => exact exec_pbuild_of_long hs hspent hlong
  | addSpent hi hspent => exact (addsRefused s i hi).1 hspent
  | pbuildSpent hspent => exact exec_pbuild_of_spent hspent
  | sliceOverrun hv hin h2 h32 hover =>
    rw [not_or] at hin
    exact exec_slice_of_overrun (start := s.opa.toInt.toNat) (length := s.opb.toInt.toNat) hv (by omega) (by omega)
      (by omega) (by omega) (by omega) (by rw [Slot.bufLen]; omega)

/-! ### Without a cause a command completes -/

/-- A command ends as the causes say: one of them holds, or the command completes. -/
def EndsByCause (s : State) (i : Instr) : Prop :=
  (∃ e, Raises s i e) ∨ ∃ t, exec i s = .next t ∧ t.err = .ok

/-- A construction from 1 to `MAX_BYTES` bytes completes. -/
theorem EndsByCause.ofConstruct {i : Instr} {sa : SlotNum} {bs : List Byte} {m : Bool}
    (h : exec i s = conclude s (construct sa bs m s)) (h0 : bs.length ≠ 0) (hfit : bs.length ≤ s.params.maxBytes) :
    EndsByCause s i := by
  rw [construct_of_fits h0 hfit] at h
  exact .inr ⟨_, h, rfl⟩

/-- `MAX_BYTES` holds the bytes of every scalar load (00_scope.md R12). -/
theorem EndsByCause.ofScalar (hs : s.Inv) {i : Instr} {sa : SlotNum} {n v : Nat} {m : Bool}
    (h : exec i s = conclude s (construct sa (bytesLE n v) m s)) (h0 : n ≠ 0) (h16 : n ≤ 16) :
    EndsByCause s i := by
  obtain ⟨⟨-, ⟨hmax, -⟩, -⟩, -⟩ := hs
  exact .ofConstruct h (by rwa [length_bytesLE]) (by rw [length_bytesLE]; omega)

theorem loadb_endsByCause (m : Bool) (sa : SlotNum) : EndsByCause s (.loadb m sa) := by
  by_cases hzero : s.opa.toNat = 0
  · exact .inl ⟨_, .loadbZero hzero⟩
  by_cases hlong : s.params.maxBytes < s.opa.toNat
  · exact .inl ⟨_, .loadbLong hlong⟩
  have hfit := Nat.not_lt.1 hlong
  exact .ofConstruct (exec_loadb_of_fits m sa hzero hfit) (by simpa using hzero) (by simpa using hfit)

theorem copy_endsByCause (hs : s.Inv) (m : Bool) (sa sb : SlotNum) : EndsByCause s (.copy m sa sb) := by
  cases hv : (s.slot sb).valid with
  | false => exact .inl ⟨_, .copyEmpty hv⟩
  | true =>
    obtain ⟨hpos, hfit, -⟩ := (State.slot_wf hs sb).1 hv
    exact .ofConstruct (exec_copy_of_valid m sa (by simp [hv])) (by rw [Slot.length_bytes]; omega)
      (by rwa [Slot.length_bytes])

theorem get_endsByCause {sa : SlotNum} (hv : (s.slot sa).valid = true) : EndsByCause s (.get sa) := by
  by_cases hout : OutsideStore (s.slot sa) s.opa.toInt
  · exact .inl ⟨_, .getOutside hv hout⟩
  · exact .inr ⟨_, exec_get_of_inside (by simp [hv]) hout, rfl⟩

theorem set_endsByCause {sa : SlotNum} (hv : (s.slot sa).valid = true) : EndsByCause s (.set sa) := by
  cases hm : (s.slot sa).mutable with
  | false => exact .inl ⟨_, .setReadOnly hv hm⟩
  | true =>
    by_cases hout : OutsideStore (s.slot sa) s.opa.toInt
    · exact .inl ⟨_, .setOutside hv hm hout⟩
    · exact .inr ⟨_, exec_set_of_inside (by simp [hv]) (by simp [hm]) hout, rfl⟩

theorem slice_endsByCause {sa : SlotNum} (hv : (s.slot sa).valid = true) : EndsByCause s (.slice sa) := by
  by_cases hout : OutsideStore (s.slot sa) s.opa.toInt ∨ s.opb.toInt < 1 ∨ 32 < s.opb.toInt
  · exact .inl ⟨_, .sliceOutside hv hout⟩
  obtain ⟨hin, hlength⟩ := not_or.1 hout
  have ⟨hpos, hlt⟩ := not_or.1 hin
  by_cases hfit : s.opa.toInt.toNat + s.opb.toInt.toNat ≤ 8 * (s.slot sa).bufLen
  · exact .inr ⟨_, exec_slice_of_fits hv (by omega) (by omega) (by omega) (by omega) (by omega) hfit, rfl⟩
  · rw [Slot.bufLen] at hfit
    exact .inl ⟨_, .sliceOverrun hv hin (by omega) (by omega) (by omega)⟩

theorem eq_endsByCause {sa : SlotNum} (hv : (s.slot sa).valid = true) (sb : SlotNum) : EndsByCause s (.eq sa sb) := by
  by_cases hm : (s.slot sa).mutable = true ∨ (s.slot sb).valid = true ∧ (s.slot sb).mutable = true
  · exact .inl ⟨_, .eqMutable hv hm⟩
  obtain ⟨hma, hmb⟩ := not_or.1 hm
  cases hvb : (s.slot sb).valid with
  | false => exact .inr ⟨_, exec_eq_of_empty_comparand hv (Bool.eq_false_iff.2 hma) hvb, rfl⟩
  | true =>
    exact .inr ⟨_, exec_eq_of_readOnly (by simp [hv]) hma (by simp [hvb]) fun h => hmb ⟨hvb, h⟩, rfl⟩

theorem add_endsByCause {i : Instr} (hi : i.isAdd = true) : EndsByCause s i := by
  obtain ⟨v, mask, hexec⟩ := exec_of_isAdd hi s
  obtain ⟨hspent, -⟩ | ⟨hspent, hfull, -⟩ | ⟨-, -, hadd⟩ := addField_cases v mask s
  · exact .inl ⟨_, .addSpent hi hspent⟩
  · exact .inl ⟨_, .addFull hi hspent hfull⟩
  · rw [hadd] at hexec
    exact .inr ⟨_, hexec, rfl⟩

theorem pbuild_endsByCause (hs : s.Inv) (m : Bool) {sa : SlotNum} (hsa : sa.toNat < s.params.numSlots) :
    EndsByCause s (.pbuild m sa) := by
  cases hspent : s.pk.spent with
  | true => exact .inl ⟨_, .pbuildSpent hspent⟩
  | false =>
    by_cases hzero : s.pk.totalBits = 0
    · exact .inl ⟨_, .pbuildEmpty hspent hzero⟩
    by_cases hlong : s.params.maxBytes < (s.pk.totalBits + 7) / 8
    · exact .inl ⟨_, .pbuildLong hspent hlong⟩
    obtain ⟨t, ht, herr, -⟩ := exec_pbuild_of_fits hs m hsa hspent (by omega) (by omega)
    exact .inr ⟨t, ht, herr⟩

/-- Every well-formed command ends as the causes say. -/
theorem exec_endsByCause {i : Instr} (hs : s.Inv) (hi : i.wellFormed s.params) : EndsByCause s i := by
  by_cases hempty : ∃ sa, i.receiver = some sa ∧ (s.slot sa).valid = false
  · obtain ⟨sa, hsa, hv⟩ := hempty
    exact .inl ⟨_, .emptyReceiver hsa hv⟩
  have hvalid {sa : SlotNum} (hsa : i.receiver = some sa) : (s.slot sa).valid = true :=
    Bool.eq_true_of_not_eq_false fun hv => hempty ⟨sa, hsa, hv⟩
  cases i with
  | nop | free | pclear => exact .inr ⟨_, rfl, rfl⟩
  | loadb m sa => exact loadb_endsByCause m sa
  | load8 | load16 | load32 | load64 | load128 => exact .ofScalar hs rfl (by decide) (by decide)
  | copy m sa sb => exact copy_endsByCause hs m sa sb
  | get sa => exact get_endsByCause (hvalid rfl)
  | set sa => exact set_endsByCause (hvalid rfl)
  | slice sa => exact slice_endsByCause (hvalid rfl)
  | count sa => exact .inr ⟨_, exec_count_of_valid (by simp [hvalid rfl]), rfl⟩
  | nbytes sa => exact .inr ⟨_, exec_nbytes_of_valid (by simp [hvalid rfl]), rfl⟩
  | exportAll sa => exact .inr ⟨_, exec_exportAll_of_valid (by simp [hvalid rfl]), rfl⟩
  | exportLogical sa => exact .inr ⟨_, exec_exportLogical_of_valid (by simp [hvalid rfl]), rfl⟩
  | eq sa sb => exact eq_endsByCause (hvalid rfl) sb
  | padd | paddb | padd8 | padd16 => exact add_endsByCause rfl
  | pbuild m sa => exact pbuild_endsByCause hs m (hi sa (by simp [Instr.slotFields]))

/-- A well-formed command ends with an error exactly when that error has a cause. -/
theorem exec_err_iff {i : Instr} (hs : s.Inv) (hi : i.wellFormed s.params) :
    ∃ t, exec i s = .next t ∧ (t.err ≠ .ok → OnlyErr s t) ∧ ∀ e ≠ .ok, (t.err = e ↔ Raises s i e) := by
  obtain ⟨t, ht, honly⟩ := errorChangesOnlyErr i s
  have hraises {e : ErrCode} (h : Raises s i e) : t.err = e := by
    obtain rfl : t = { s with err := e } := by simpa [h.exec_eq hs] using ht.symm
    rfl
  refine ⟨t, ht, honly, fun e he => ⟨fun herr => ?_, hraises⟩⟩
  obtain ⟨e', h⟩ | ⟨u, hu, hok⟩ := exec_endsByCause hs hi
  · rwa [← herr, hraises h]
  · obtain rfl : t = u := by simpa [hu] using ht.symm
    exact absurd (herr.symm.trans hok) he

end Sys2Proof.Machine
end

section
/-! The causes of each error code (60_exceptions.md R271 to R278): the constructors of `Raises` that end with it. -/

namespace Sys2Proof.Machine

/-- Settles O23: the causes are LOADB of no bytes and PBUILD of no bits. -/
theorem invalidArgumentCauses : Obligations.InvalidArgumentCauses := by
  intro i s hs hi
  obtain ⟨t, ht, honly, hiff⟩ := exec_err_iff hs hi
  refine ⟨t, ht, fun herr => honly (by simp [herr]), (hiff _ (by decide)).trans ⟨fun h => ?_, ?_⟩⟩
  · cases h with
    | loadbZero hzero => exact .inl ⟨⟨_, _, rfl⟩, hzero⟩
    | pbuildEmpty hspent hzero => exact .inr ⟨⟨_, _, rfl⟩, hspent, hzero⟩
  · rintro (⟨⟨m, sa, rfl⟩, hzero⟩ | ⟨⟨m, sa, rfl⟩, hspent, hzero⟩)
    · exact .loadbZero hzero
    · exact .pbuildEmpty hspent hzero

/-- Settles O24: GET, SET and SLICE each have one cause. -/
theorem indexOutOfRangeCauses : Obligations.IndexOutOfRangeCauses := by
  intro i s hs hi
  obtain ⟨t, ht, honly, hiff⟩ := exec_err_iff hs hi
  refine ⟨t, ht, fun herr => honly (by simp [herr]), (hiff _ (by decide)).trans ⟨fun h => ?_, ?_⟩⟩
  · cases h with
    | getOutside hv hout => exact .inl ⟨_, rfl, hv, hout⟩
    | setOutside hv hm hout => exact .inr (.inl ⟨_, rfl, hv, hm, hout⟩)
    | sliceOutside hv hout => exact .inr (.inr ⟨_, rfl, hv, hout⟩)
  · rintro (⟨sa, rfl, hv, hout⟩ | ⟨sa, rfl, hv, hm, hout⟩ | ⟨sa, rfl, hv, hout⟩)
    · exact .getOutside hv hout
    · exact .setOutside hv hm hout
    · exact .sliceOutside hv hout

/-- Settles O25: the causes are an empty receiver and COPY's empty source; EQ's empty SB is none. -/
theorem noStoreCauses : Obligations.NoStoreCauses := by
  intro i s hs hi
  obtain ⟨t, ht, -, hiff⟩ := exec_err_iff hs hi
  refine ⟨t, ht, (hiff _ (by decide)).trans ⟨fun h => ?_, ?_⟩, ?_⟩
  · cases h with
    | emptyReceiver hsa hv => exact .inl ⟨_, hsa, hv⟩
    | copyEmpty hv => exact .inr ⟨_, _, _, rfl, hv⟩
  · rintro (⟨sa, hsa, hv⟩ | ⟨m, sa, sb, rfl, hv⟩)
    · exact .emptyReceiver hsa hv
    · exact .copyEmpty hv
  · rintro sa sb rfl hv hm hv'
    obtain rfl : t = { s with result := 0, err := .ok } := by
      simpa [exec_eq_of_empty_comparand hv hm hv'] using ht.symm
    exact ⟨rfl, rfl⟩

/-- Settles O26: SET and EQ each have one cause. -/
theorem modeViolationCauses : Obligations.ModeViolationCauses := by
  intro i s hs hi
  obtain ⟨t, ht, -, hiff⟩ := exec_err_iff hs hi
  refine ⟨t, ht, (hiff _ (by decide)).trans ⟨fun h => ?_, ?_⟩⟩
  · cases h with
    | setReadOnly hv hm => exact .inl ⟨_, rfl, hv, hm⟩
    | eqMutable hv hm => exact .inr ⟨_, _, rfl, hv, hm⟩
  · rintro (⟨sa, rfl, hv, hm⟩ | ⟨sa, sb, rfl, hv, hm⟩)
    · exact .setReadOnly hv hm
    · exact .eqMutable hv hm

/-- Settles O27: LOADB, the adds and PBUILD each have one cause. -/
theorem capacityCauses : Obligations.CapacityCauses := by
  intro i s hs hi
  obtain ⟨t, ht, -, hiff⟩ := exec_err_iff hs hi
  refine ⟨t, ht, (hiff _ (by decide)).trans ⟨fun h => ?_, ?_⟩⟩
  · cases h with
    | loadbLong hlong => exact .inl ⟨⟨_, _, rfl⟩, hlong⟩
    | addFull hadd hspent hfull => exact .inr (.inl ⟨hadd, hspent, hfull⟩)
    | pbuildLong hspent hlong => exact .inr (.inr ⟨⟨_, _, rfl⟩, hspent, hlong⟩)
  · rintro (⟨⟨m, sa, rfl⟩, hlong⟩ | ⟨hadd, hspent, hfull⟩ | ⟨⟨m, sa, rfl⟩, hspent, hlong⟩)
    · exact .loadbLong hlong
    · exact .addFull hadd hspent hfull
    · exact .pbuildLong hspent hlong

/-- Settles O28: the adds and PBUILD each have one cause. -/
theorem packerSpentCauses : Obligations.PackerSpentCauses := by
  intro i s hs hi
  obtain ⟨t, ht, -, hiff⟩ := exec_err_iff hs hi
  refine ⟨t, ht, (hiff _ (by decide)).trans ⟨fun h => ?_, ?_⟩⟩
  · cases h with
    | addSpent hadd hspent => exact ⟨.inl hadd, hspent⟩
    | pbuildSpent hspent => exact ⟨.inr ⟨_, _, rfl⟩, hspent⟩
  · rintro ⟨hadd | ⟨m, sa, rfl⟩, hspent⟩
    · exact .addSpent hadd hspent
    · exact .pbuildSpent hspent

/-- Settles O29: SLICE alone has a cause. -/
theorem windowOverrunCauses : Obligations.WindowOverrunCauses := by
  intro i s hs hi
  obtain ⟨t, ht, -, hiff⟩ := exec_err_iff hs hi
  refine ⟨t, ht, (hiff _ (by decide)).trans ⟨fun h => ?_, ?_⟩⟩
  · cases h with
    | sliceOverrun hv hin h2 h32 hover => exact ⟨_, rfl, hv, hin, h2, h32, hover⟩
  · rintro ⟨sa, rfl, hv, hin, h2, h32, hover⟩
    exact .sliceOverrun hv hin h2 h32 hover

end Sys2Proof.Machine
end

section
/-! Reset, the two ways back to it, and the block that never stops (70_reset_and_hazards.md). -/

namespace Sys2Proof.Machine

/-! ### The state after reset -/

/-- The state after reset is one that the reset event gives: a reset of it changes nothing. -/
theorem State.resetWith_afterReset (p : Params) : (State.resetWith p).afterReset = State.resetWith p := rfl

/-- The state after reset of a block of parameters in range meets the invariant (70_reset_and_hazards.md R300). -/
theorem State.resetWith_inv {p : Params} (hp : p.wf) : (State.resetWith p).Inv :=
  State.resetWith_afterReset p ▸ State.afterReset_inv hp

/-- Settles O9: the suggested parameters are in range. -/
theorem resetMeetsInvariant : Obligations.ResetMeetsInvariant :=
  ⟨fun _ hp => State.resetWith_inv hp, State.resetWith_inv (by decide)⟩

/-! ### What a host reads after reset -/

/-- After reset STATUS is 0: there is no error, and the packer is neither spent nor, with room for a field, full
(10_state.md R44). -/
theorem State.afterReset_status {s : State} (hp : s.params.wf) : s.afterReset.status = 0 := by
  obtain ⟨-, -, ⟨hfields, -⟩, -⟩ := hp
  have hroom : 0 ≠ s.params.maxFields := by omega
  simp [State.status, State.pspent, State.pfull, ErrCode.code, hroom]

/-- The registers that read 0 after reset (70_reset_and_hazards.md R300). -/
theorem exists_zero_reg_of_afterReset {s : State} (hp : s.params.wf) {off : Nat}
    (h : off ∈ [0x004, 0x008, 0x00C, 0x010, 0x014, 0x018, 0x01C, 0x020, 0x024, 0x028, 0x02C]) :
    ∃ r : Reg, r.offset = off ∧ s.afterReset.reg r = 0 := by
  simp only [List.mem_cons, List.not_mem_nil, or_false] at h
  rcases h with rfl | rfl | rfl | rfl | rfl | rfl | rfl | rfl | rfl | rfl | rfl
  · exact ⟨.status, rfl, State.afterReset_status hp⟩
  · exact ⟨.opa, rfl, rfl⟩
  · exact ⟨.opb, rfl, rfl⟩
  · exact ⟨.val0, rfl, rfl⟩
  · exact ⟨.val1, rfl, rfl⟩
  · exact ⟨.val2, rfl, rfl⟩
  · exact ⟨.val3, rfl, rfl⟩
  · exact ⟨.result, rfl, rfl⟩
  · exact ⟨.result2, rfl, rfl⟩
  · exact ⟨.pkTotal, rfl, rfl⟩
  · exact ⟨.pkNfields, rfl, rfl⟩

/-- PARAM0 as one number, for parameters that fit its fields (10_state.md R47). -/
theorem param0Word_eq_ofNat {p : Params} (hp : p.wf) :
    param0Word p = BitVec.ofNat 32 (65536 * p.maxFields + p.numSlots) := by
  obtain ⟨⟨-, hslots⟩, -, ⟨-, hfields⟩, -⟩ := hp
  apply BitVec.eq_of_toNat_eq
  rw [param0Word, toNat_append_eq_add, toNat_append_eq_add, BitVec.toNat_ofNat, BitVec.toNat_ofNat,
    BitVec.toNat_ofNat, BitVec.toNat_ofNat]
  omega

/-- The reset event gives the values R300 states. -/
theorem State.afterReset_holdsResetValues {s : State} (hp : s.params.wf) : HoldsResetValues s.afterReset := by
  refine ⟨by simp, fun x hx => ?_, rfl, rfl, rfl, fun off hoff => ?_, busRead_reg _ .id, ?_,
    busRead_reg _ .param1, fun k hk => busRead_byte hk⟩
  · obtain rfl : x = Slot.empty := List.eq_of_mem_replicate hx
    exact ⟨rfl, rfl, rfl, rfl⟩
  · obtain ⟨r, rfl, hr⟩ := exists_zero_reg_of_afterReset hp hoff
    rw [busRead_reg, hr]
  · exact (busRead_reg _ .param0).trans (congrArg Reply.readWord (param0Word_eq_ofNat hp))

/-- Settles O10: both states are ones that the reset event gives. -/
theorem resetGivesResetValues : Obligations.ResetGivesResetValues :=
  ⟨fun _ _ hp hport => ⟨_, step_of_reset hport, rfl, rfl, State.afterReset_holdsResetValues hp⟩,
    fun p hp => State.resetWith_afterReset p ▸ State.afterReset_holdsResetValues hp⟩

/-! ### FREE of every slot and PCLEAR -/

/-- A run of commands goes on where its first part ended. -/
theorem execAll_append {is js : List Instr} {s t : State} (h : execAll is s = .next t) :
    execAll (is ++ js) s = execAll js t := by
  induction is generalizing s with
  | nil =>
    obtain rfl : s = t := by simpa [execAll] using h
    rfl
  | cons i is ih =>
    obtain ⟨u, hu, -⟩ := exec_effect i s
    simp only [execAll, hu] at h
    simp only [List.cons_append, execAll, hu]
    exact ih h

/-- FREE completes with its slot empty (40_store_construction.md R138). -/
theorem exec_free (sa : SlotNum) (s : State) :
    exec (.free sa) s = .next { s with slots := s.slots.set sa.toNat Slot.empty, err := .ok } := rfl

/-- PCLEAR completes with the packer empty (42_packer.md R229). -/
theorem exec_pclear (s : State) : exec .pclear s = .next { s with pk := Packer.empty, err := .ok } := rfl

/-- Overwriting the first element behind a run of `a` makes the run one longer. -/
theorem set_replicate_append_drop {α : Type} (a : α) {l : List α} {n : Nat} (h : n < l.length) :
    (List.replicate n a ++ l.drop n).set n a = List.replicate (n + 1) a ++ l.drop (n + 1) := by
  rw [List.set_append_right _ _ (by simp), List.length_replicate, Nat.sub_self, List.drop_eq_getElem_cons h,
    List.set_cons_zero, List.replicate_succ', List.append_assoc, List.singleton_append]

/-- FREE of slots 0 to `n - 1` empties those and keeps everything else but STATUS.ERR. -/
theorem execAll_free_range (s : State) {n : Nat} (hlen : n ≤ s.slots.length) (h16 : n ≤ 16) :
    ∃ e, execAll ((List.range n).map fun k => Instr.free (BitVec.ofNat 4 k)) s =
      .next { s with slots := List.replicate n Slot.empty ++ s.slots.drop n, err := e } := by
  induction n with
  | zero => exact ⟨s.err, rfl⟩
  | succ n ih =>
    obtain ⟨e, he⟩ := ih (by omega) (by omega)
    have hn : (BitVec.ofNat 4 n).toNat = n := by
      rw [BitVec.toNat_ofNat]
      omega
    refine ⟨.ok, ?_⟩
    rw [List.range_succ, List.map_append, execAll_append he, List.map_singleton, execAll, exec_free, hn]
    simp only [execAll, set_replicate_append_drop Slot.empty hlen]

/-- Settles O39: the FREEs empty the whole slot list, and PCLEAR clears the packer. -/
theorem freeAllAndPclearRestore : Obligations.FreeAllAndPclearRestore := by
  intro s hs
  obtain ⟨⟨⟨-, h16⟩, -⟩, hlen, -⟩ := hs
  obtain ⟨e, he⟩ := execAll_free_range s hlen.ge h16
  rw [execAll_append he, execAll, exec_pclear, List.drop_of_length_le hlen.le, List.append_nil]
  rfl

/-! ### The block never stops -/

/-- Every bus access is answered, and keeps the pending inputs and the parameters. -/
theorem handleAccess_keeps_port_params (a : BusAccess) (s : State) :
    ∃ t, handleAccess a s = .next t ∧ t.port = s.port ∧ t.params = s.params := by
  obtain ⟨r, h⟩ | ⟨off, w, u, hu, h⟩ | ⟨w, -, h⟩ := handleAccess_cases a s
  · exact ⟨_, h, rfl, rfl⟩
  · refine ⟨_, h, ?_⟩
    obtain ⟨r, rfl⟩ | rfl | ⟨k, bs, -, rfl⟩ := busWrite_stored hu
    · simp
    · exact ⟨rfl, rfl⟩
    · exact ⟨rfl, rfl⟩
  · obtain ⟨t, ht, hparams, -, -, -, -, -, -, hport, -⟩ := runCommand_keepsOperands w s
    exact ⟨t.reply .written, by rw [h, ht, answered], hport, hparams⟩

/-- Settles O7: the block waits, answers an access or resets (70_reset_and_hazards.md R311). -/
theorem stepNeverStops : Obligations.StepNeverStops := by
  intro s
  match hport : s.port with
  | [] => exact ⟨s, step_of_empty hport, hport, rfl⟩
  | .access a :: rest =>
    obtain ⟨t, ht, htport, hparams⟩ := handleAccess_keeps_port_params a { s with port := rest }
    exact ⟨t, (step_of_access hport).trans ht, htport, hparams⟩
  | .reset :: rest => exact ⟨_, step_of_reset hport, rfl, rfl⟩

end Sys2Proof.Machine
end
